-- ==== Sys2Proof/Word.lean ====
section
/-! DEFINITION. The word types of the machine (spec/00_scope.md R9, R11): everything is unsigned, bit 0 is the
least significant bit. -/

namespace Sys2Proof

/-- A byte: 8 bits (R9). -/
abbrev Byte := BitVec 8

/-- An instruction word, the value of `I`, `PC` or a stack entry: 16 bits (R9). -/
abbrev Word := BitVec 16

/-- A nibble: "a 4-bit field of an instruction word" (R13). -/
abbrev Nibble := BitVec 4

/-- The index of one of the 16 registers, always a 4-bit field of the instruction word (10_state.md R21). -/
abbrev RegIdx := BitVec 4

/-- A 12-bit address field `nnn` (30_encoding.md R71). -/
abbrev Addr12 := BitVec 12

end Sys2Proof
end

