-- ==== Sys2Proof/Config.lean ====
section
/-! DEFINITION. What is fixed for the machine (spec/00_scope.md R9), what a platform chooses (R10: the font), the
events (R7), and the two free values (the random byte of `RND`, R10; the events of an open schedule, R7). -/

namespace Sys2Proof

/-- The highest address of `Mem`: MEM_SIZE is 4096 bytes (R9). -/
def Config.lastAddr : Nat := 0xFFF

/-- PROG_BASE: where the program image is loaded and where execution begins (R9, 10_state.md R24). -/
def Config.progBase : Nat := 0x200

/-- MAX_IMAGE: 4096 − 0x200 bytes (R9). -/
def Config.maxImage : Nat := 3584

/-- The parameters FONT_BASE and FONT_DATA (R10, 92_eei_decisions.md D16). The bound of `base` is the spec's
constraint FONT_BASE + 80 ≤ 0x200. DESIGN CHOICE (log 3): the machine carries its font in a field of State that
nothing writes, so that every statement over states holds for every font. -/
structure Font where
  base : Fin 433
  data : Vector Byte 80
  deriving DecidableEq, Repr

/-- Glyphs 0 to 7 of the table of 44_index_memory.md R153. -/
def Config.glyphs0to7 : Vector Byte 40 := #v[
  0xF0, 0x90, 0x90, 0x90, 0xF0,
  0x20, 0x60, 0x20, 0x20, 0x70,
  0xF0, 0x10, 0xF0, 0x80, 0xF0,
  0xF0, 0x10, 0xF0, 0x10, 0xF0,
  0x90, 0x90, 0xF0, 0x10, 0x10,
  0xF0, 0x80, 0xF0, 0x10, 0xF0,
  0xF0, 0x80, 0xF0, 0x90, 0xF0,
  0xF0, 0x10, 0x20, 0x40, 0x40]

/-- Glyphs 8 to F of the table of 44_index_memory.md R153. -/
def Config.glyphs8toF : Vector Byte 40 := #v[
  0xF0, 0x90, 0xF0, 0x90, 0xF0,
  0xF0, 0x90, 0xF0, 0x10, 0xF0,
  0xF0, 0x90, 0xF0, 0x90, 0x90,
  0xE0, 0x90, 0xE0, 0x90, 0xE0,
  0xF0, 0x80, 0x80, 0x80, 0xF0,
  0xE0, 0x90, 0x90, 0x90, 0xE0,
  0xF0, 0x80, 0xF0, 0x80, 0xF0,
  0xF0, 0x80, 0xF0, 0x80, 0x80]

/-- The spec's defaults: FONT_BASE = 0x000 (R10) and the 80 bytes of R153. -/
def Config.defaultFont : Font where
  base := 0
  data := Config.glyphs0to7 ++ Config.glyphs8toF

/-- What a byte of `Mem` holds after `Reset` with an empty image (20_memory.md R57): the font at FONT_BASE, zero
elsewhere. It is what an address that the memory list does not name reads as (log 10). -/
def Font.resetByte (f : Font) (a : Nat) : Byte :=
  if h : f.base.val ≤ a ∧ a < f.base.val + 80 then f.data[a - f.base.val] else 0

/-- The random byte of the `k`-th `RND` executed: a FREE VALUE (R10 RAND "a free 8-bit draw per execution",
41_alu.md R122, 92_eei_decisions.md D17). Nothing constrains it (log 2). -/
opaque Config.draw8 : Nat → Byte

/-- The events of the machine (00_scope.md R7). Observation changes nothing and is a function of the state
(Machine/HostView.lean). -/
inductive Machine.Event where
  /-- The executor's event: one fetch, decode, execute, or one poll of the keys, or nothing (40_step.md R90). -/
  | step
  /-- The Timer Clock's event (45_timers_keys.md R166). -/
  | tick
  /-- The host replaces the 16 key flags; bit i is key i (45_timers_keys.md R167). -/
  | setKeys (k : BitVec 16)
  /-- The host resets the machine and loads an image (70_reset_and_hazards.md R210). -/
  | reset (image : List Byte)
  deriving DecidableEq, Repr, Inhabited

/-- The `k`-th event of an open schedule: a FREE VALUE ("a model must allow any finite or infinite interleaving", R7,
92_eei_decisions.md D22). Nothing constrains it (log 1). -/
opaque Config.freeEvent : Nat → Machine.Event

end Sys2Proof
end

