-- ==== Sys2Proof/Syntax.lean ====
section
/-! DEFINITION. The 34 instructions of spec/opcode_table.json, one constructor per row, in the table's order, with the
operand fields of spec/30_encoding.md R71 to R73; and their text in the assembler's syntax (R82). -/

namespace Sys2Proof

/-- The decoded instruction: one variant per operation with "precisely the operand types it semantically accepts"
(30_encoding.md R73). The field types carry the operand ranges, so every term is a legal instruction. -/
inductive Instr where
  /-- `00E0` CLS (43_display.md R140). -/
  | cls
  /-- `00EE` RET (46_flow.md R172). -/
  | ret
  /-- `1nnn` JP nnn (46_flow.md R170). -/
  | jp (nnn : Addr12)
  /-- `2nnn` CALL nnn (46_flow.md R171). -/
  | call (nnn : Addr12)
  /-- `3xkk` SE Vx, kk (42_skip.md R130). -/
  | seImm (x : RegIdx) (kk : Byte)
  /-- `4xkk` SNE Vx, kk (42_skip.md R131). -/
  | sneImm (x : RegIdx) (kk : Byte)
  /-- `5xy_` SE Vx, Vy (42_skip.md R132); the low nibble of the word is ignored (30_encoding.md R78). -/
  | seReg (x y : RegIdx)
  /-- `6xkk` LD Vx, kk (41_alu.md R111). -/
  | ldImm (x : RegIdx) (kk : Byte)
  /-- `7xkk` ADD Vx, kk (41_alu.md R112). -/
  | addImm (x : RegIdx) (kk : Byte)
  /-- `8xy0` LD Vx, Vy (41_alu.md R113). -/
  | ldReg (x y : RegIdx)
  /-- `8xy1` OR Vx, Vy (41_alu.md R114). -/
  | orReg (x y : RegIdx)
  /-- `8xy2` AND Vx, Vy (41_alu.md R115). -/
  | andReg (x y : RegIdx)
  /-- `8xy3` XOR Vx, Vy (41_alu.md R116). -/
  | xorReg (x y : RegIdx)
  /-- `8xy4` ADD Vx, Vy (41_alu.md R117). -/
  | addReg (x y : RegIdx)
  /-- `8xy5` SUB Vx, Vy (41_alu.md R118). -/
  | sub (x y : RegIdx)
  /-- `8xy6` SHR Vx (41_alu.md R119); y is encoded and ignored (30_encoding.md R78). -/
  | shr (x y : RegIdx)
  /-- `8xy7` SUBN Vx, Vy (41_alu.md R120). -/
  | subn (x y : RegIdx)
  /-- `8xyE` SHL Vx (41_alu.md R121); y is encoded and ignored (30_encoding.md R78). -/
  | shl (x y : RegIdx)
  /-- `9xy_` SNE Vx, Vy (42_skip.md R133); the low nibble of the word is ignored (30_encoding.md R78). -/
  | sneReg (x y : RegIdx)
  /-- `Annn` LD I, nnn (44_index_memory.md R150). -/
  | ldI (nnn : Addr12)
  /-- `Bnnn` JP V0, nnn (46_flow.md R173). -/
  | jpV0 (nnn : Addr12)
  /-- `Cxkk` RND Vx, kk (41_alu.md R122). -/
  | rnd (x : RegIdx) (kk : Byte)
  /-- `Dxyn` DRW Vx, Vy, n (43_display.md R141). -/
  | draw (x y : RegIdx) (n : Nibble)
  /-- `Ex9E` SKP Vx (42_skip.md R134). -/
  | skipKey (x : RegIdx)
  /-- `ExA1` SKNP Vx (42_skip.md R135). -/
  | skipNoKey (x : RegIdx)
  /-- `Fx07` LD Vx, DT (45_timers_keys.md R160). -/
  | ldVxDt (x : RegIdx)
  /-- `Fx0A` LD Vx, K (45_timers_keys.md R163). -/
  | waitKey (x : RegIdx)
  /-- `Fx15` LD DT, Vx (45_timers_keys.md R161). -/
  | ldDtVx (x : RegIdx)
  /-- `Fx18` LD ST, Vx (45_timers_keys.md R162). -/
  | ldStVx (x : RegIdx)
  /-- `Fx1E` ADD I, Vx (44_index_memory.md R151). -/
  | addI (x : RegIdx)
  /-- `Fx29` LD F, Vx (44_index_memory.md R152). -/
  | ldF (x : RegIdx)
  /-- `Fx33` LD B, Vx (44_index_memory.md R154). -/
  | movBcd (x : RegIdx)
  /-- `Fx55` LD [I], Vx (44_index_memory.md R155). -/
  | writeM (x : RegIdx)
  /-- `Fx65` LD Vx, [I] (44_index_memory.md R156). -/
  | readM (x : RegIdx)
  deriving DecidableEq, Repr

/-- One hexadecimal digit. -/
def hexDigit (d : Nibble) : String :=
  ["0", "1", "2", "3", "4", "5", "6", "7", "8", "9", "A", "B", "C", "D", "E", "F"].getD d.toNat "0"

/-- `V0` to `V9`, `VA` to `VF` (30_encoding.md R82). -/
def asmReg (x : RegIdx) : String := "V" ++ hexDigit x

/-- An 8-bit number in the assembler's hexadecimal (R82). -/
def asmByte (b : Byte) : String := "0x" ++ hexDigit (b.extractLsb' 4 4) ++ hexDigit (b.extractLsb' 0 4)

/-- A 12-bit number in the assembler's hexadecimal (R82). -/
def asmAddr (a : Addr12) : String :=
  "0x" ++ hexDigit (a.extractLsb' 8 4) ++ hexDigit (a.extractLsb' 4 4) ++ hexDigit (a.extractLsb' 0 4)

/-- `Vx, Vy`. -/
def asmRegs (x y : RegIdx) : String := asmReg x ++ ", " ++ asmReg y

/-- The instruction in the assembler's syntax (30_encoding.md R82 and the column "assembler" of R76). A second register
of SHR and SHL is written only where the word's y field is not 0 (R82). -/
def Instr.asm : Instr → String
  | .cls => "CLS"
  | .ret => "RET"
  | .jp nnn => "JP " ++ asmAddr nnn
  | .call nnn => "CALL " ++ asmAddr nnn
  | .seImm x kk => "SE " ++ asmReg x ++ ", " ++ asmByte kk
  | .sneImm x kk => "SNE " ++ asmReg x ++ ", " ++ asmByte kk
  | .seReg x y => "SE " ++ asmRegs x y
  | .ldImm x kk => "LD " ++ asmReg x ++ ", " ++ asmByte kk
  | .addImm x kk => "ADD " ++ asmReg x ++ ", " ++ asmByte kk
  | .ldReg x y => "LD " ++ asmRegs x y
  | .orReg x y => "OR " ++ asmRegs x y
  | .andReg x y => "AND " ++ asmRegs x y
  | .xorReg x y => "XOR " ++ asmRegs x y
  | .addReg x y => "ADD " ++ asmRegs x y
  | .sub x y => "SUB " ++ asmRegs x y
  | .shr x y => if y = 0 then "SHR " ++ asmReg x else "SHR " ++ asmRegs x y
  | .subn x y => "SUBN " ++ asmRegs x y
  | .shl x y => if y = 0 then "SHL " ++ asmReg x else "SHL " ++ asmRegs x y
  | .sneReg x y => "SNE " ++ asmRegs x y
  | .ldI nnn => "LD I, " ++ asmAddr nnn
  | .jpV0 nnn => "JP V0, " ++ asmAddr nnn
  | .rnd x kk => "RND " ++ asmReg x ++ ", " ++ asmByte kk
  | .draw x y n => "DRW " ++ asmRegs x y ++ ", 0x" ++ hexDigit n
  | .skipKey x => "SKP " ++ asmReg x
  | .skipNoKey x => "SKNP " ++ asmReg x
  | .ldVxDt x => "LD " ++ asmReg x ++ ", DT"
  | .waitKey x => "LD " ++ asmReg x ++ ", K"
  | .ldDtVx x => "LD DT, " ++ asmReg x
  | .ldStVx x => "LD ST, " ++ asmReg x
  | .addI x => "ADD I, " ++ asmReg x
  | .ldF x => "LD F, " ++ asmReg x
  | .movBcd x => "LD B, " ++ asmReg x
  | .writeM x => "LD [I], " ++ asmReg x
  | .readM x => "LD " ++ asmReg x ++ ", [I]"

end Sys2Proof
end

