-- ==== Sys2Proof/WellFormed.lean ====
section
/-! DEFINITION. What is checked before the machine runs it. A term of `Instr` needs no check: its field types hold
exactly the operand ranges of spec/30_encoding.md R71 and R73, and every register index is valid (10_state.md R21). Two
things do: a word may be illegal (R79), and an image may be too large (70_reset_and_hazards.md R211). -/

namespace Sys2Proof

/-- The low nibbles of the 8 family that select no instruction (30_encoding.md R79). -/
def illegalArith (n : Nibble) : Bool :=
  [0x8#4, 0x9#4, 0xA#4, 0xB#4, 0xC#4, 0xD#4, 0xF#4].contains n

/-- The low bytes of the E family that select an instruction (30_encoding.md R79). -/
def legalE (kk : Byte) : Bool := [0x9E#8, 0xA1#8].contains kk

/-- The low bytes of the F family that select an instruction (30_encoding.md R79). -/
def legalF (kk : Byte) : Bool :=
  [0x07#8, 0x0A#8, 0x15#8, 0x18#8, 0x1E#8, 0x29#8, 0x33#8, 0x55#8, 0x65#8].contains kk

/-- A word that is an instruction: none of the four illegal spaces of 30_encoding.md R79 holds it. Written from
that rule's table, apart from the decoder. -/
def wordLegal (w : Word) : Bool :=
  let op := w.extractLsb' 12 4
  let kk := w.extractLsb' 0 8
  !((op == 0x0 && w != 0x00E0 && w != 0x00EE)
    || (op == 0x8 && illegalArith (w.extractLsb' 0 4))
    || (op == 0xE && !legalE kk)
    || (op == 0xF && !legalF kk))

/-- A program image that `Reset` accepts: at most 3584 bytes; its length may be odd and it may hold data
(70_reset_and_hazards.md R210, R211). -/
def imageWellFormed (image : List Byte) : Bool := decide (image.length ≤ Config.maxImage)

end Sys2Proof
end

