-- ==== Sys2Proof/Decode.lean ====
section
/-! DEFINITION. The decoder of spec/30_encoding.md R74, total on words and on byte lists, rejecting by name; then the
encoder written from the formats of R72 and R76; the opcode map of R76 as masks; and the host's table numbering. -/

namespace Sys2Proof

/-- Why a word or a byte list is not an instruction. -/
inductive DecodeError where
  /-- "Any word matching none of these patterns" (R74): raised as the fault `UnknownOpcode` by a `Step`. -/
  | unknownOpcode (w : Word)
  /-- Fewer than two bytes: never met by a `Step`, which fetches two (log 12). -/
  | truncated
  deriving DecidableEq, Repr

/-- `w[15:12]`, the primary opcode (R71). -/
def fieldOp (w : Word) : Nibble := w.extractLsb' 12 4
/-- `w[11:8]`, the first register index (R71). -/
def fieldX (w : Word) : RegIdx := w.extractLsb' 8 4
/-- `w[7:4]`, the second register index (R71). -/
def fieldY (w : Word) : RegIdx := w.extractLsb' 4 4
/-- `w[3:0]`, the low nibble (R71). -/
def fieldN (w : Word) : Nibble := w.extractLsb' 0 4
/-- `w[7:0]`, the low byte (R71). -/
def fieldKK (w : Word) : Byte := w.extractLsb' 0 8
/-- `w[11:0]`, the 12-bit address (R71). -/
def fieldNNN (w : Word) : Addr12 := w.extractLsb' 0 12

/-- The family with high nibble 8, "distinguished by low nibble" (R74). -/
def decodeArith (w : Word) : Except DecodeError Instr :=
  match fieldN w with
  | 0x0#4 => .ok (.ldReg (fieldX w) (fieldY w))
  | 0x1#4 => .ok (.orReg (fieldX w) (fieldY w))
  | 0x2#4 => .ok (.andReg (fieldX w) (fieldY w))
  | 0x3#4 => .ok (.xorReg (fieldX w) (fieldY w))
  | 0x4#4 => .ok (.addReg (fieldX w) (fieldY w))
  | 0x5#4 => .ok (.sub (fieldX w) (fieldY w))
  | 0x6#4 => .ok (.shr (fieldX w) (fieldY w))
  | 0x7#4 => .ok (.subn (fieldX w) (fieldY w))
  | 0xE#4 => .ok (.shl (fieldX w) (fieldY w))
  | _ => .error (.unknownOpcode w)

/-- The family with high nibble E, "distinguished by low byte" (R74): one key-skip pair (R77). -/
def decodeKeys (w : Word) : Except DecodeError Instr :=
  match fieldKK w with
  | 0x9E#8 => .ok (.skipKey (fieldX w))
  | 0xA1#8 => .ok (.skipNoKey (fieldX w))
  | _ => .error (.unknownOpcode w)

/-- The family with high nibble F, "distinguished by low byte" (R74). -/
def decodeMisc (w : Word) : Except DecodeError Instr :=
  match fieldKK w with
  | 0x07#8 => .ok (.ldVxDt (fieldX w))
  | 0x0A#8 => .ok (.waitKey (fieldX w))
  | 0x15#8 => .ok (.ldDtVx (fieldX w))
  | 0x18#8 => .ok (.ldStVx (fieldX w))
  | 0x1E#8 => .ok (.addI (fieldX w))
  | 0x29#8 => .ok (.ldF (fieldX w))
  | 0x33#8 => .ok (.movBcd (fieldX w))
  | 0x55#8 => .ok (.writeM (fieldX w))
  | 0x65#8 => .ok (.readM (fieldX w))
  | _ => .error (.unknownOpcode w)

/-- The choice on the high nibble (R74). -/
def decodeByOp (w : Word) : Except DecodeError Instr :=
  match fieldOp w with
  | 0x1#4 => .ok (.jp (fieldNNN w))
  | 0x2#4 => .ok (.call (fieldNNN w))
  | 0x3#4 => .ok (.seImm (fieldX w) (fieldKK w))
  | 0x4#4 => .ok (.sneImm (fieldX w) (fieldKK w))
  | 0x5#4 => .ok (.seReg (fieldX w) (fieldY w))
  | 0x6#4 => .ok (.ldImm (fieldX w) (fieldKK w))
  | 0x7#4 => .ok (.addImm (fieldX w) (fieldKK w))
  | 0x8#4 => decodeArith w
  | 0x9#4 => .ok (.sneReg (fieldX w) (fieldY w))
  | 0xA#4 => .ok (.ldI (fieldNNN w))
  | 0xB#4 => .ok (.jpV0 (fieldNNN w))
  | 0xC#4 => .ok (.rnd (fieldX w) (fieldKK w))
  | 0xD#4 => .ok (.draw (fieldX w) (fieldY w) (fieldN w))
  | 0xE#4 => decodeKeys w
  | 0xF#4 => decodeMisc w
  | _ => .error (.unknownOpcode w)

/-- `Decode(w)` of R74: the two exact words first, then the high nibble. -/
def decode (w : Word) : Except DecodeError Instr :=
  if w = 0x00E0 then .ok .cls
  else if w = 0x00EE then .ok .ret
  else decodeByOp w

/-- The two bytes of a word as `Mem` holds it: big-endian, bits 15:8 at the lower address (20_memory.md R51). Also the
directive `DW w` (30_encoding.md R83). -/
def wordBytes (w : Word) : List Byte := [w.extractLsb' 8 8, w.extractLsb' 0 8]

/-- Decoding any bytes: one instruction and the bytes after it (every instruction is two bytes, R70). -/
def decodeBytes : List Byte → Except DecodeError (Instr × List Byte)
  | hi :: lo :: rest =>
    match decode (hi ++ lo) with
    | .ok i => .ok (i, rest)
    | .error e => .error e
  | _ => .error .truncated

/-- The format NNN of R72: an opcode nibble and a 12-bit address. -/
def formatNNN (op : Nibble) (nnn : Addr12) : Word := op ++ nnn

/-- The formats XKK and XFF of R72: an opcode nibble, a register index and a low byte. -/
def formatXKK (op : Nibble) (x : RegIdx) (kk : Byte) : Word := op ++ x ++ kk

/-- The formats XY_, XYF and XYN of R72: an opcode nibble, two register indices and a low nibble. -/
def formatXYN (op : Nibble) (x y : RegIdx) (n : Nibble) : Word := op ++ x ++ y ++ n

/-- The word of an instruction, from the formats of R72 and the opcode map of R76. The ignored low nibble of
`5xy_` and `9xy_` is emitted as 0 (R78, R82). -/
def encode : Instr → Word
  | .cls => 0x00E0
  | .ret => 0x00EE
  | .jp nnn => formatNNN 0x1#4 nnn
  | .call nnn => formatNNN 0x2#4 nnn
  | .seImm x kk => formatXKK 0x3#4 x kk
  | .sneImm x kk => formatXKK 0x4#4 x kk
  | .seReg x y => formatXYN 0x5#4 x y 0x0#4
  | .ldImm x kk => formatXKK 0x6#4 x kk
  | .addImm x kk => formatXKK 0x7#4 x kk
  | .ldReg x y => formatXYN 0x8#4 x y 0x0#4
  | .orReg x y => formatXYN 0x8#4 x y 0x1#4
  | .andReg x y => formatXYN 0x8#4 x y 0x2#4
  | .xorReg x y => formatXYN 0x8#4 x y 0x3#4
  | .addReg x y => formatXYN 0x8#4 x y 0x4#4
  | .sub x y => formatXYN 0x8#4 x y 0x5#4
  | .shr x y => formatXYN 0x8#4 x y 0x6#4
  | .subn x y => formatXYN 0x8#4 x y 0x7#4
  | .shl x y => formatXYN 0x8#4 x y 0xE#4
  | .sneReg x y => formatXYN 0x9#4 x y 0x0#4
  | .ldI nnn => formatNNN 0xA#4 nnn
  | .jpV0 nnn => formatNNN 0xB#4 nnn
  | .rnd x kk => formatXKK 0xC#4 x kk
  | .draw x y n => formatXYN 0xD#4 x y n
  | .skipKey x => formatXKK 0xE#4 x 0x9E#8
  | .skipNoKey x => formatXKK 0xE#4 x 0xA1#8
  | .ldVxDt x => formatXKK 0xF#4 x 0x07#8
  | .waitKey x => formatXKK 0xF#4 x 0x0A#8
  | .ldDtVx x => formatXKK 0xF#4 x 0x15#8
  | .ldStVx x => formatXKK 0xF#4 x 0x18#8
  | .addI x => formatXKK 0xF#4 x 0x1E#8
  | .ldF x => formatXKK 0xF#4 x 0x29#8
  | .movBcd x => formatXKK 0xF#4 x 0x33#8
  | .writeM x => formatXKK 0xF#4 x 0x55#8
  | .readM x => formatXKK 0xF#4 x 0x65#8

/-- The bytes of an instruction in `Mem`. -/
def encodeBytes (i : Instr) : List Byte := wordBytes (encode i)

/-- One row of the opcode map of R76: a word `w` selects it when `w and mask = pattern`. -/
structure OpcodeRow where
  pattern : Word
  mask : Word
  deriving DecidableEq, Repr

/-- "A word `w` selects a row when `w and mask = match`" (R76). -/
def OpcodeRow.selects (r : OpcodeRow) (w : Word) : Bool := w &&& r.mask == r.pattern

/-- The row of R76 that an instruction belongs to (match and mask columns). -/
def Instr.row : Instr → OpcodeRow
  | .cls => ⟨0x00E0, 0xFFFF⟩
  | .ret => ⟨0x00EE, 0xFFFF⟩
  | .jp _ => ⟨0x1000, 0xF000⟩
  | .call _ => ⟨0x2000, 0xF000⟩
  | .seImm _ _ => ⟨0x3000, 0xF000⟩
  | .sneImm _ _ => ⟨0x4000, 0xF000⟩
  | .seReg _ _ => ⟨0x5000, 0xF000⟩
  | .ldImm _ _ => ⟨0x6000, 0xF000⟩
  | .addImm _ _ => ⟨0x7000, 0xF000⟩
  | .ldReg _ _ => ⟨0x8000, 0xF00F⟩
  | .orReg _ _ => ⟨0x8001, 0xF00F⟩
  | .andReg _ _ => ⟨0x8002, 0xF00F⟩
  | .xorReg _ _ => ⟨0x8003, 0xF00F⟩
  | .addReg _ _ => ⟨0x8004, 0xF00F⟩
  | .sub _ _ => ⟨0x8005, 0xF00F⟩
  | .shr _ _ => ⟨0x8006, 0xF00F⟩
  | .subn _ _ => ⟨0x8007, 0xF00F⟩
  | .shl _ _ => ⟨0x800E, 0xF00F⟩
  | .sneReg _ _ => ⟨0x9000, 0xF000⟩
  | .ldI _ => ⟨0xA000, 0xF000⟩
  | .jpV0 _ => ⟨0xB000, 0xF000⟩
  | .rnd _ _ => ⟨0xC000, 0xF000⟩
  | .draw _ _ _ => ⟨0xD000, 0xF000⟩
  | .skipKey _ => ⟨0xE09E, 0xF0FF⟩
  | .skipNoKey _ => ⟨0xE0A1, 0xF0FF⟩
  | .ldVxDt _ => ⟨0xF007, 0xF0FF⟩
  | .waitKey _ => ⟨0xF00A, 0xF0FF⟩
  | .ldDtVx _ => ⟨0xF015, 0xF0FF⟩
  | .ldStVx _ => ⟨0xF018, 0xF0FF⟩
  | .addI _ => ⟨0xF01E, 0xF0FF⟩
  | .ldF _ => ⟨0xF029, 0xF0FF⟩
  | .movBcd _ => ⟨0xF033, 0xF0FF⟩
  | .writeM _ => ⟨0xF055, 0xF0FF⟩
  | .readM _ => ⟨0xF065, 0xF0FF⟩

/-- Rows 1 to 34 of the opcode map of R76, in its order. -/
def opcodeTable : List OpcodeRow :=
  [Instr.cls.row, Instr.ret.row, (Instr.jp 0).row, (Instr.call 0).row, (Instr.seImm 0 0).row,
    (Instr.sneImm 0 0).row, (Instr.seReg 0 0).row, (Instr.ldImm 0 0).row, (Instr.addImm 0 0).row]
  ++ [(Instr.ldReg 0 0).row, (Instr.orReg 0 0).row, (Instr.andReg 0 0).row, (Instr.xorReg 0 0).row,
    (Instr.addReg 0 0).row, (Instr.sub 0 0).row, (Instr.shr 0 0).row, (Instr.subn 0 0).row, (Instr.shl 0 0).row]
  ++ [(Instr.sneReg 0 0).row, (Instr.ldI 0).row, (Instr.jpV0 0).row, (Instr.rnd 0 0).row, (Instr.draw 0 0 0).row,
    (Instr.skipKey 0).row, (Instr.skipNoKey 0).row]
  ++ [(Instr.ldVxDt 0).row, (Instr.waitKey 0).row, (Instr.ldDtVx 0).row, (Instr.ldStVx 0).row, (Instr.addI 0).row,
    (Instr.ldF 0).row, (Instr.movBcd 0).row, (Instr.writeM 0).row, (Instr.readM 0).row]

/-- The word whose bits are `w` numbered as spec/opcode_table.json numbers them, the bits from `nbits` up being 0. -/
def tableWord (nbits w : Nat) : Word := BitVec.ofNat 16 (w % 2 ^ nbits)

/-- What the decoder reads from the bytes of that word, laid out big-endian. -/
def decodeTableWord (nbits w : Nat) : Option Instr :=
  match decodeBytes (wordBytes (tableWord nbits w)) with
  | .ok (i, _) => some i
  | .error _ => none

end Sys2Proof
end

