-- ==== Sys2Proof/Machine/State.lean ====
section
/-! DEFINITION. The state of the machine (spec/10_state.md R20: "the complete state of the machine"), the reasons a step
can stop, and the state right after reset (R38). Plain data only. -/

namespace Sys2Proof.Machine

/-- The executor's state (10_state.md R31). -/
inductive Mode where
  /-- Normal fetch, decode, execute. -/
  | running
  /-- Suspended until a key goes down; `x` is the destination register of the `LD Vx, K` that entered it. -/
  | awaitingKey (x : RegIdx)
  /-- Terminal: only `Reset` leaves it. -/
  | halted
  deriving DecidableEq, Repr

/-- The fault kinds of 60_exceptions.md R181. -/
inductive FaultKind where
  /-- The reset value. -/
  | none
  /-- The fetched word selects no instruction (R182). -/
  | unknownOpcode
  /-- A fetch or a data access beyond 0xFFF (R183). -/
  | outOfBounds
  /-- `CALL` with SP = 16 (R184). -/
  | stackOverflow
  /-- `RET` with SP = 0 (R184). -/
  | stackUnderflow
  /-- Reserved code 5: no rule raises it (R185). -/
  | invalidRegisterTarget
  /-- A fetch from an odd address (R187). -/
  | misalignedPC
  deriving DecidableEq, Repr

/-- The numeric code of a fault kind (60_exceptions.md R181). -/
def FaultKind.code : FaultKind → Nat
  | .none => 0
  | .unknownOpcode => 1
  | .outOfBounds => 2
  | .stackOverflow => 3
  | .stackUnderflow => 4
  | .invalidRegisterTarget => 5
  | .misalignedPC => 6

/-- The fault record FAULT (10_state.md R32). -/
structure FaultRecord where
  kind : FaultKind
  pc : Word
  opcode : Word
  addr : Word
  deriving DecidableEq, Repr

/-- FAULT's reset value: "none (all fields 0)" (R32). -/
def FaultRecord.none : FaultRecord := ⟨.none, 0, 0, 0⟩

/-- What drives the machine when the listed events are used up. -/
inductive Beyond where
  /-- `Step` events, for ever. -/
  | steps
  /-- These events over and over, for ever. -/
  | cycle (e : Event) (es : List Event)
  /-- The events `Config.freeEvent k`, `Config.freeEvent (k + 1)`, …, of which nothing is assumed (log 1). -/
  | free (k : Nat)
  deriving DecidableEq, Repr

/-- The events still to come: a list, then what comes after it. Every finite interleaving begins one; every one that repeats
for ever is one; the free events stand for any other infinite one (00_scope.md R7, 92_eei_decisions.md D22; log 1). -/
structure Schedule where
  /-- The events to come first, in order. -/
  listed : List Event
  /-- What follows them. -/
  beyond : Beyond
  deriving DecidableEq, Repr

/-- The events of a list, then `Step` events. -/
def Schedule.listing (es : List Event) : Schedule := ⟨es, .steps⟩

/-- The memory, as the list of its cells that differ from their reset byte, addresses rising (log 10). -/
abbrev Memory := List Host.Cell

/-- The bitmap surface: 32 rows, each the 64 pixels of the row, bit c of the row being column c (10_state.md R35;
the packing of a row into a word is the model's, log 11). -/
abbrev Bitmap := Vector (BitVec 64) 32

/-- The state (10_state.md R20). The last three fields are the MODEL's own: the spec calls them parameters and inputs
(R37), and they stand here because a step has no other argument (logs 1, 2, 3). -/
structure State where
  /-- `V[0..15]` (R21); `V[15]` is the flag VF (R22). -/
  v : Vector Byte 16
  /-- The address register `I` (R23). -/
  i : Word
  /-- The program counter (R24). -/
  pc : Word
  /-- `Stack[0..15]` (R27). -/
  stack : Vector Word 16
  /-- The stack depth, 0 to 16 (R28). -/
  sp : Fin 17
  /-- The delay timer (R29). -/
  dt : Byte
  /-- The sound timer (R29). -/
  st : Byte
  /-- `KEYS[0..15]`, bit k is key k (R30). -/
  keys : BitVec 16
  /-- `MODE` (R31). -/
  mode : Mode
  /-- `FAULT` (R32). -/
  fault : FaultRecord
  /-- `KEY_PREV[0..15]`, the hidden copy of the keys (R33). -/
  keyPrev : BitVec 16
  /-- `Mem` (R34). -/
  mem : Memory
  /-- `FB` (R35). -/
  fb : Bitmap
  /-- The model's own: FONT_BASE and FONT_DATA, written by nothing (00_scope.md R10; log 3). -/
  font : Font
  /-- The model's own: how many random bytes have been drawn (00_scope.md R10; log 2). -/
  draws : Nat
  /-- The model's own: the events still to come (00_scope.md R7; log 1). -/
  schedule : Schedule
  deriving DecidableEq, Repr

/-- Reasons to stop with a fault: there are none. Every fault of the spec has a described entry (60_exceptions.md R186)
and is a next state in mode `halted` (log 4); reading any register is always possible. -/
inductive Fault where
  deriving DecidableEq, Repr

/-- Reasons to refuse. -/
inductive Refusal where
  /-- Raised by an arm of `exec` whose instruction has no meaning yet. Safe: nothing can be proved of such a step. No
  arm raises it. -/
  | notModelled (mnemonic : String)
  /-- Raised by the event `Reset(image)` with more than 3584 bytes: "refused as a whole", and no state is defined
  afterwards (70_reset_and_hazards.md R211). Safe: the spec refuses it too. -/
  | imageTooLarge (length : Nat)
  deriving DecidableEq, Repr

/-- What one step answers. -/
abbrev Outcome := Host.Outcome State Fault Refusal

/-- The machine right after `Reset` with the empty image (10_state.md R38, 70_reset_and_hazards.md R210): memory lists
nothing, so it holds the font and zeros. -/
def State.reset : State where
  v := Vector.replicate 16 0
  i := 0
  pc := 0x200
  stack := Vector.replicate 16 0
  sp := 0
  dt := 0
  st := 0
  keys := 0
  mode := .running
  fault := .none
  keyPrev := 0
  mem := []
  fb := Vector.replicate 32 0
  font := Config.defaultFont
  draws := 0
  schedule := .listing []

end Sys2Proof.Machine
end

