-- ==== Sys2Proof/Machine/Ops.lean ====
section
/-! DEFINITION. The named operations over memory, registers, stack and bitmap that every meaning uses, and the one
entry of a fault (spec/20_memory.md R51 to R54, 60_exceptions.md R186). -/

namespace Sys2Proof.Machine

/-! ### Memory -/

/-- The byte listed for an address, if one is. -/
def Memory.lookup : Memory → Nat → Option Byte
  | [], _ => none
  | (a, b) :: m, k => if a = k then some b else Memory.lookup m k

/-- The list with no entry for an address. -/
def Memory.erase (m : Memory) (k : Nat) : Memory := m.filter fun c => c.1 != k

/-- The list with an address's entry set, addresses kept rising. -/
def Memory.insert : Memory → Nat → Byte → Memory
  | [], k, v => [(k, v)]
  | (a, b) :: m, k, v =>
    if k < a then (k, v) :: (a, b) :: m
    else if k = a then (k, v) :: m
    else (a, b) :: Memory.insert m k v

/-- `Mem[a]`: the listed byte, or the reset byte of the address (20_memory.md R57, R60; log 10). -/
def Memory.read (f : Font) (m : Memory) (a : Nat) : Byte := (Memory.lookup m a).getD (f.resetByte a)

/-- `Mem[a] <- v` (20_memory.md R53), keeping the canonical form. -/
def Memory.write (f : Font) (m : Memory) (a : Nat) (v : Byte) : Memory :=
  if v = f.resetByte a then Memory.erase m a else Memory.insert m a v

/-- Bytes written at consecutive rising addresses, the first at `a`. -/
def Memory.writeAll (f : Font) : Memory → Nat → List Byte → Memory
  | m, _, [] => m
  | m, a, v :: vs => Memory.writeAll f (Memory.write f m a v) (a + 1) vs

/-- The canonical form: addresses strictly rising, all in 0x000..0xFFF, and no entry equal to its reset byte. -/
def Memory.wf (f : Font) (m : Memory) : Bool :=
  decide (m.Pairwise fun c d => c.1 < d.1) && m.all fun c => decide (c.1 ≤ Config.lastAddr) && c.2 != f.resetByte c.1

/-- The test of 20_memory.md R54: the bytes `base` to `base + m` all exist. The sum is an integer and does not wrap. -/
def inBounds (base m : Nat) : Bool := decide (base + m ≤ Config.lastAddr)

/-- `MemRead(a, 1)` once the bounds are checked (20_memory.md R52). -/
def State.byteAt (s : State) (a : Nat) : Byte := Memory.read s.font s.mem a

/-- `MemRead(a, 2)` once the bounds are checked: big-endian (20_memory.md R51, R52). -/
def State.wordAt (s : State) (a : Nat) : Word := s.byteAt a ++ s.byteAt (a + 1)

/-- The `n` bytes from `a` on. -/
def State.bytesAt (s : State) (a : Nat) : Nat → List Byte
  | 0 => []
  | n + 1 => s.byteAt a :: State.bytesAt s (a + 1) n

/-- `MemWrite` of bytes at `a`, `a + 1`, …, once the bounds are checked (20_memory.md R53). -/
def State.store (s : State) (a : Nat) (vs : List Byte) : State :=
  { s with mem := Memory.writeAll s.font s.mem a vs }

/-! ### Registers -/

/-- `V[x]` (00_scope.md R12). -/
def State.getV (s : State) (x : RegIdx) : Byte := s.v[x.toNat]'(x.isLt)

/-- `V[x] <- b` (00_scope.md R12). -/
def State.setV (s : State) (x : RegIdx) (b : Byte) : State := { s with v := s.v.set x.toNat b x.isLt }

/-- `PC <- target`. -/
def State.setPc (s : State) (a : Word) : State := { s with pc := a }

/-- `PC <- PC + 2`, the default (40_step.md R94, 10_state.md R25). -/
def State.advance (s : State) : State := s.setPc (s.pc + 2)

/-- The registers V0 to Vx in order (44_index_memory.md R155). -/
def State.lowRegs (s : State) (x : RegIdx) : List Byte := s.v.toList.take (x.toNat + 1)

/-- `V[i] <- Mem[a + i]` for i = 0..x; the other registers keep their values (44_index_memory.md R156). -/
def State.loadRegs (s : State) (x : RegIdx) (a : Nat) : State :=
  { s with v := Vector.ofFn fun i => if i.val ≤ x.toNat then s.byteAt (a + i.val) else s.v[i.val]'(i.isLt) }

/-! ### Bitmap -/

/-- `FB[row][col]` (10_state.md R35). -/
def Bitmap.get (fb : Bitmap) (row : Fin 32) (col : Fin 64) : Bool := (fb[row.val]'(row.isLt)).getLsbD col.val

/-- `FB[row][col] <- FB[row][col] xor 1` (43_display.md R141). -/
def Bitmap.flip (fb : Bitmap) (row : Fin 32) (col : Fin 64) : Bitmap :=
  fb.set row.val ((fb[row.val]'(row.isLt)) ^^^ BitVec.twoPow 64 col.val) row.isLt

/-- The surface with every pixel 0 (43_display.md R140). -/
def Bitmap.clear : Bitmap := Vector.replicate 32 0

/-- The pixel of the machine's bitmap, also the host's read-only view of it (60_exceptions.md R197). -/
def State.pixel (s : State) (row : Fin 32) (col : Fin 64) : Bool := Bitmap.get s.fb row col

/-! ### Faults -/

/-- `raise Kind(pc, opcode, addr)` of 60_exceptions.md R186, the machine's only trap entry: FAULT and MODE are written
and nothing else. FAULT.pc is PC, which every `raise` of the spec passes. There is no return from it (R189). -/
def State.raise (s : State) (kind : FaultKind) (opcode addr : Word) : State :=
  { s with fault := ⟨kind, s.pc, opcode, addr⟩, mode := .halted }

end Sys2Proof.Machine
end

