-- ==== Sys2Proof/Machine/Flags.lean ====
section
/-! DEFINITION. The arithmetic of spec/41_alu.md R123 with the value of VF it gives (10_state.md R22): results and flags
are computed on integers and narrowed at the end. -/

namespace Sys2Proof.Machine

/-- A flag as VF holds it: 0x00 or 0x01 (10_state.md R22). -/
def flagByte (f : Bool) : Byte := if f then 1 else 0

/-- Sum and carry out of bit 7 (41_alu.md R117). -/
def addFlag (a b : Byte) : Byte × Bool := (BitVec.ofNat 8 (a.toNat + b.toNat), decide (255 < a.toNat + b.toNat))

/-- Difference and NOT borrow: the minuend is at least the subtrahend (41_alu.md R118, R120). -/
def subFlag (a b : Byte) : Byte × Bool := (BitVec.ofInt 8 ((a.toNat : Int) - b.toNat), decide (b.toNat ≤ a.toNat))

/-- Shift right by one and the bit shifted out (41_alu.md R119). -/
def shrFlag (a : Byte) : Byte × Bool := (BitVec.ofNat 8 (a.toNat / 2), a.getLsbD 0)

/-- Shift left by one and the bit shifted out (41_alu.md R121). -/
def shlFlag (a : Byte) : Byte × Bool := (BitVec.ofNat 8 (a.toNat * 2), a.getLsbD 7)

/-- The order of 41_alu.md R110: the result goes to Vx, then the flag to VF, so that VF ends as the flag also when
x = 15; then PC + 2. Result and flag were computed from the registers before either write. -/
def State.writeFlagged (s : State) (x : RegIdx) (r : Byte × Bool) : State :=
  ((s.setV x r.1).setV 15 (flagByte r.2)).advance

end Sys2Proof.Machine
end

