-- ==== Sys2Proof/Machine/Operands.lean ====
section
/-! DEFINITION. The operand forms: immediates (spec/30_encoding.md R73), key and glyph numbers, the jump offset, the
access through I (44_index_memory.md R157), the sprite's pixels and the BCD digits. -/

namespace Sys2Proof.Machine

/-- `zext_16(nnn)` (30_encoding.md R73). -/
def wordOfAddr (nnn : Addr12) : Word := nnn.setWidth 16

/-- `zext_16(V[x])` (44_index_memory.md R151, 46_flow.md R173). -/
def State.wordOfV (s : State) (x : RegIdx) : Word := (s.getV x).setWidth 16

/-- `V[x][3:0]`, the key number of `SKP` and `SKNP` (42_skip.md R134) and the glyph number of `LD F` (44 R152). -/
def State.lowNibble (s : State) (x : RegIdx) : Nibble := (s.getV x).extractLsb' 0 4

/-- `KEYS[k] = 1` (10_state.md R30). -/
def State.keyDown (s : State) (k : Nibble) : Bool := s.keys.getLsbD k.toNat

/-- `FONT_BASE + 5 * g` (44_index_memory.md R152). -/
def State.glyphAddr (s : State) (g : Nibble) : Word := BitVec.ofNat 16 (s.font.base.val + 5 * g.toNat)

/-- Whether the access of the bytes I to I + m passes the test of 20_memory.md R54; I is the full 16-bit value. -/
def State.reaches (s : State) (m : Nat) : Bool := inBounds s.i.toNat m

/-- The hundreds, tens and units digits, a byte each (44_index_memory.md R154). -/
def bcdDigits (v : Byte) : List Byte :=
  [BitVec.ofNat 8 (v.toNat / 100), BitVec.ofNat 8 (v.toNat / 10 % 10), BitVec.ofNat 8 (v.toNat % 10)]

/-- A row of the surface, reduced modulo its height (43_display.md R141). -/
def wrapRow (r : Nat) : Fin 32 := ⟨r % 32, Nat.mod_lt _ (by decide)⟩

/-- A column of the surface, reduced modulo its width (43_display.md R141). -/
def wrapCol (c : Nat) : Fin 64 := ⟨c % 64, Nat.mod_lt _ (by decide)⟩

/-- The pixels that one sprite byte names: bit 7 − c stands for the pixel c columns to the right of `x0` (R141). -/
def spriteRow (b : Byte) (x0 y : Nat) : List (Fin 32 × Fin 64) :=
  ((List.range 8).filter fun c => b.getLsbD (7 - c)).map fun c => (wrapRow y, wrapCol (x0 + c))

/-- The pixels that a sprite names, one byte a row, in the order of the loops of 43_display.md R141. -/
def spritePixels : List Byte → Nat → Nat → List (Fin 32 × Fin 64)
  | [], _, _ => []
  | b :: bs, x0, y => spriteRow b x0 y ++ spritePixels bs x0 (y + 1)

/-- The destructive xor of 43_display.md R141 over a list of pixels, and whether one of them was set (`hit`). -/
def blit : List (Fin 32 × Fin 64) → Bitmap → Bool → Bitmap × Bool
  | [], fb, hit => (fb, hit)
  | (row, col) :: ps, fb, hit => blit ps (Bitmap.flip fb row col) (hit || Bitmap.get fb row col)

end Sys2Proof.Machine
end

