-- ==== Sys2Proof/Machine/Alu.lean ====
section
/-! DEFINITION. Register file and ALU instructions (spec/41_alu.md). None can fault after decode. -/

namespace Sys2Proof.Machine

/-- `LD Vx, kk` (R111). -/
def execLdImm (x : RegIdx) (kk : Byte) (s : State) : Outcome := .next (s.setV x kk).advance

/-- `ADD Vx, kk` (R112): wraps modulo 256, VF is not written as a flag. -/
def execAddImm (x : RegIdx) (kk : Byte) (s : State) : Outcome := .next (s.setV x (addFlag (s.getV x) kk).1).advance

/-- `LD Vx, Vy` (R113). -/
def execLdReg (x y : RegIdx) (s : State) : Outcome := .next (s.setV x (s.getV y)).advance

/-- `OR Vx, Vy` (R114). -/
def execOrReg (x y : RegIdx) (s : State) : Outcome := .next (s.setV x (s.getV x ||| s.getV y)).advance

/-- `AND Vx, Vy` (R115). -/
def execAndReg (x y : RegIdx) (s : State) : Outcome := .next (s.setV x (s.getV x &&& s.getV y)).advance

/-- `XOR Vx, Vy` (R116). -/
def execXorReg (x y : RegIdx) (s : State) : Outcome := .next (s.setV x (s.getV x ^^^ s.getV y)).advance

/-- `ADD Vx, Vy` (R117): VF is the carry. -/
def execAddReg (x y : RegIdx) (s : State) : Outcome := .next (s.writeFlagged x (addFlag (s.getV x) (s.getV y)))

/-- `SUB Vx, Vy` (R118): Vx − Vy, VF is NOT borrow. -/
def execSub (x y : RegIdx) (s : State) : Outcome := .next (s.writeFlagged x (subFlag (s.getV x) (s.getV y)))

/-- `SHR Vx` (R119): Vx is shifted in place, y is ignored. -/
def execShr (x _y : RegIdx) (s : State) : Outcome := .next (s.writeFlagged x (shrFlag (s.getV x)))

/-- `SUBN Vx, Vy` (R120): Vy − Vx, VF is NOT borrow. -/
def execSubn (x y : RegIdx) (s : State) : Outcome := .next (s.writeFlagged x (subFlag (s.getV y) (s.getV x)))

/-- `SHL Vx` (R121): Vx is shifted in place, y is ignored. -/
def execShl (x _y : RegIdx) (s : State) : Outcome := .next (s.writeFlagged x (shlFlag (s.getV x)))

/-- `RND Vx, kk` (R122): the draw is the free value at the counter, and the counter moves on (log 2). -/
def execRnd (x : RegIdx) (kk : Byte) (s : State) : Outcome :=
  .next ({ s with draws := s.draws + 1 }.setV x (Config.draw8 s.draws &&& kk)).advance

end Sys2Proof.Machine
end

