-- ==== Sys2Proof/Machine/Display.lean ====
section
/-! DEFINITION. Display instructions and the sprite blitter (spec/43_display.md). -/

namespace Sys2Proof.Machine

/-- `CLS` (R140). -/
def execCls (s : State) : Outcome := .next { s with fb := Bitmap.clear }.advance

/-- What `DRW Vx, Vy, n` gives: the new surface and `hit` (R141, R142). Coordinates and sprite bytes are read before
anything is written. -/
def State.blitSprite (s : State) (x y : RegIdx) (n : Nibble) : Bitmap × Bool :=
  blit (spritePixels (s.bytesAt s.i.toNat n.toNat) (s.getV x).toNat (s.getV y).toNat) s.fb false

/-- Whether `DRW` passes its bounds check: with n = 0 there is no access and no check (R141, 20_memory.md R54). -/
def State.spriteInBounds (s : State) (n : Nibble) : Bool := n == 0 || s.reaches (n.toNat - 1)

/-- `DRW Vx, Vy, n` (R141). VF is written also when n = 0. -/
def execDraw (x y : RegIdx) (n : Nibble) (s : State) : Outcome :=
  if s.spriteInBounds n then
    .next ({ s with fb := (s.blitSprite x y n).1 }.setV 15 (flagByte (s.blitSprite x y n).2)).advance
  else .next (s.raise .outOfBounds (encode (.draw x y n)) s.i)

end Sys2Proof.Machine
end

