-- ==== Sys2Proof/Machine/Flow.lean ====
section
/-! DEFINITION. Control-transfer instructions (spec/46_flow.md). No target is checked here: an odd or out-of-range one
faults at the next fetch (R174). -/

namespace Sys2Proof.Machine

/-- `JP nnn` (R170). -/
def execJp (nnn : Addr12) (s : State) : Outcome := .next (s.setPc (wordOfAddr nnn))

/-- `CALL nnn` (R171): the return address is PC + 2. -/
def execCall (nnn : Addr12) (s : State) : Outcome :=
  if h : s.sp.val < 16 then
    .next ({ s with stack := s.stack.set s.sp.val (s.pc + 2) h, sp := ⟨s.sp.val + 1, by omega⟩ }.setPc (wordOfAddr nnn))
  else .next (s.raise .stackOverflow (encode (.call nnn)) 0)

/-- `RET` (R172): the popped entry stays in the array; no + 2 follows. -/
def execRet (s : State) : Outcome :=
  if h : 0 < s.sp.val then
    .next ({ s with sp := ⟨s.sp.val - 1, by omega⟩ }.setPc (s.stack[s.sp.val - 1]'(by omega)))
  else .next (s.raise .stackUnderflow (encode .ret) 0)

/-- `JP V0, nnn` (R173): the offset register is always V0; no masking. -/
def execJpV0 (nnn : Addr12) (s : State) : Outcome := .next (s.setPc (wordOfAddr nnn + s.wordOfV 0))

end Sys2Proof.Machine
end

