-- ==== Sys2Proof/Machine/IndexMemory.lean ====
section
/-! DEFINITION. Address-register and memory instructions and the BCD unit (spec/44_index_memory.md). The three that
access memory check their whole range first (20_memory.md R54); I is changed only by `LD I`, `ADD I` and `LD F`. -/

namespace Sys2Proof.Machine

/-- `I <- a`. -/
def State.setI (s : State) (a : Word) : State := { s with i := a }

/-- `LD I, nnn` (R150). -/
def execLdI (nnn : Addr12) (s : State) : Outcome := .next (s.setI (wordOfAddr nnn)).advance

/-- `ADD I, Vx` (R151): modulo 65536, no mask, no flag. -/
def execAddI (x : RegIdx) (s : State) : Outcome := .next (s.setI (s.i + s.wordOfV x)).advance

/-- `LD F, Vx` (R152). -/
def execLdF (x : RegIdx) (s : State) : Outcome := .next (s.setI (s.glyphAddr (s.lowNibble x))).advance

/-- `LD B, Vx` (R154). -/
def execMovBcd (x : RegIdx) (s : State) : Outcome :=
  if s.reaches 2 then .next (s.store s.i.toNat (bcdDigits (s.getV x))).advance
  else .next (s.raise .outOfBounds (encode (.movBcd x)) s.i)

/-- `LD [I], Vx` (R155). -/
def execWriteM (x : RegIdx) (s : State) : Outcome :=
  if s.reaches x.toNat then .next (s.store s.i.toNat (s.lowRegs x)).advance
  else .next (s.raise .outOfBounds (encode (.writeM x)) s.i)

/-- `LD Vx, [I]` (R156). -/
def execReadM (x : RegIdx) (s : State) : Outcome :=
  if s.reaches x.toNat then .next (s.loadRegs x s.i.toNat).advance
  else .next (s.raise .outOfBounds (encode (.readM x)) s.i)

end Sys2Proof.Machine
end

