-- ==== Sys2Proof/Machine/Skip.lean ====
section
/-! DEFINITION. Skip instructions (spec/42_skip.md): PC + 4 when the condition holds, else PC + 2, and nothing else. The
skipped word is not fetched, decoded or checked (R130). -/

namespace Sys2Proof.Machine

/-- The write of PC that all skips share (10_state.md R25). -/
def State.skipIf (s : State) (c : Bool) : State := if c then s.setPc (s.pc + 4) else s.advance

/-- `SE Vx, kk` (R130). -/
def execSeImm (x : RegIdx) (kk : Byte) (s : State) : Outcome := .next (s.skipIf (s.getV x == kk))

/-- `SNE Vx, kk` (R131). -/
def execSneImm (x : RegIdx) (kk : Byte) (s : State) : Outcome := .next (s.skipIf (s.getV x != kk))

/-- `SE Vx, Vy` (R132). -/
def execSeReg (x y : RegIdx) (s : State) : Outcome := .next (s.skipIf (s.getV x == s.getV y))

/-- `SNE Vx, Vy` (R133). -/
def execSneReg (x y : RegIdx) (s : State) : Outcome := .next (s.skipIf (s.getV x != s.getV y))

/-- `SKP Vx` (R134). -/
def execSkipKey (x : RegIdx) (s : State) : Outcome := .next (s.skipIf (s.keyDown (s.lowNibble x)))

/-- `SKNP Vx` (R135). -/
def execSkipNoKey (x : RegIdx) (s : State) : Outcome := .next (s.skipIf (!s.keyDown (s.lowNibble x)))

end Sys2Proof.Machine
end

