-- ==== Sys2Proof/Machine/TimersKeys.lean ====
section
/-! DEFINITION. Timer and key instructions (spec/45_timers_keys.md). The events `Tick` and `SetKeys` are in
Machine/Executor.lean. -/

namespace Sys2Proof.Machine

/-- `LD Vx, DT` (R160). -/
def execLdVxDt (x : RegIdx) (s : State) : Outcome := .next (s.setV x s.dt).advance

/-- `LD DT, Vx` (R161). -/
def execLdDtVx (x : RegIdx) (s : State) : Outcome := .next { s with dt := s.getV x }.advance

/-- `LD ST, Vx` (R162). -/
def execLdStVx (x : RegIdx) (s : State) : Outcome := .next { s with st := s.getV x }.advance

/-- `LD Vx, K` (R163): the `Step` that decodes it only enters the wait; PC keeps the address of this instruction. Later
`Step` events perform the rest (40_step.md R95, `stepAwaitingKey`). -/
def execWaitKey (x : RegIdx) (s : State) : Outcome := .next { s with mode := .awaitingKey x, keyPrev := s.keys }

end Sys2Proof.Machine
end

