-- ==== Sys2Proof/Machine/Executor.lean ====
section
/-! DEFINITION. The events of the machine (spec/00_scope.md R7): `Step` in its three modes (40_step.md R90 to R96), `Tick`
and `SetKeys` (45_timers_keys.md R166, R167), `Reset` (70_reset_and_hazards.md R210, R211), and which event comes next. -/

namespace Sys2Proof.Machine

/-- A fetch at PC passes both checks of 40_step.md R92: PC + 1 ≤ 0xFFF and PC even. -/
def fetchable (pc : Word) : Bool := inBounds pc.toNat 1 && !pc.getLsbD 0

/-- A `Step` in `Running` mode (R91): the fetch checks in the order of R92, decode (R93), then the instruction. -/
def stepRunning (s : State) : Outcome :=
  if inBounds s.pc.toNat 1 then
    if s.pc.getLsbD 0 then .next (s.raise .misalignedPC 0 s.pc)
    else
      match decode (s.wordAt s.pc.toNat) with
      | .ok i => exec i s
      | .error _ => .next (s.raise .unknownOpcode (s.wordAt s.pc.toNat) 0)
  else .next (s.raise .outOfBounds 0 s.pc)

/-- The keys that are down now and were not at the last sample (R95). -/
def State.newlyDown (s : State) : BitVec 16 := s.keys &&& ~~~s.keyPrev

/-- The least element of a set of keys (R95). -/
def leastKey (ks : BitVec 16) : Option Nat := (List.range 16).find? fun k => ks.getLsbD k

/-- A `Step` in `AwaitingKey(x)` mode (R95): no fetch and no memory access. -/
def stepAwaitingKey (x : RegIdx) (s : State) : Outcome :=
  match leastKey s.newlyDown with
  | some k => .next { (s.setV x (BitVec.ofNat 8 k)).advance with mode := .running, keyPrev := s.keys }
  | none => .next { s with keyPrev := s.keys }

/-- The event `Step` (R90). In `Halted` it changes nothing (R96). -/
def stepEvent (s : State) : Outcome :=
  match s.mode with
  | .running => stepRunning s
  | .awaitingKey x => stepAwaitingKey x s
  | .halted => .next s

/-- One timer, decremented with floor 0 (45_timers_keys.md R166). -/
def countDown (t : Byte) : Byte := if t = 0 then 0 else t - 1

/-- The event `Tick`, the same in every mode (45_timers_keys.md R166). -/
def State.tick (s : State) : State := { s with dt := countDown s.dt, st := countDown s.st }

/-- The event `SetKeys(k)` (45_timers_keys.md R167). -/
def State.setKeys (s : State) (k : BitVec 16) : State := { s with keys := k }

/-- The state after an accepted `Reset(image)` (70_reset_and_hazards.md R210): every element of the spec's state at its
reset value, the font and the image in memory. The model's own fields are kept: the font is configuration, the random
input goes on, and so does the schedule. -/
def State.boot (s : State) (image : List Byte) : State :=
  { State.reset with font := s.font, draws := s.draws, schedule := s.schedule }.store Config.progBase image

/-- The event `Reset(image)`: an oversized image is refused as a whole (70_reset_and_hazards.md R211). -/
def resetEvent (image : List Byte) (s : State) : Outcome :=
  if imageWellFormed image then .next (s.boot image) else .refused (.imageTooLarge image.length)

/-- What an event does to the state (00_scope.md R7). -/
def runEvent (e : Event) (s : State) : Outcome :=
  match e with
  | .step => stepEvent s
  | .tick => .next s.tick
  | .setKeys k => .next (s.setKeys k)
  | .reset image => resetEvent image s

/-- The first event of what follows the listed ones (log 1). -/
def Beyond.next : Beyond → Event
  | .steps => .step
  | .cycle e _ => e
  | .free k => Config.freeEvent k

/-- What is left once that event is taken off. -/
def Beyond.rest : Beyond → Schedule
  | .steps => ⟨[], .steps⟩
  | .cycle e es => ⟨es, .cycle e es⟩
  | .free k => ⟨[], .free (k + 1)⟩

/-- The first event of a schedule (log 1). -/
def Schedule.next (c : Schedule) : Event :=
  match c.listed with
  | e :: _ => e
  | [] => c.beyond.next

/-- A schedule with its first event taken off. -/
def Schedule.rest (c : Schedule) : Schedule :=
  match c.listed with
  | _ :: es => ⟨es, c.beyond⟩
  | [] => c.beyond.rest

/-- The next event of the machine. -/
def State.nextEvent (s : State) : Event := s.schedule.next

/-- The machine with that event taken off its schedule. -/
def State.popEvent (s : State) : State := { s with schedule := s.schedule.rest }

/-- Where `withFetchWord` puts its word: PC where a fetch at PC is possible, else the reset vector (log 5). -/
def State.fetchAddr (s : State) : Word := if fetchable s.pc then s.pc else 0x200

/-- The state with a word placed where the next `Step` fetches, in `Running` mode with that `Step` next (log 5). -/
def State.placeWord (s : State) (w : Word) : State :=
  { s with pc := s.fetchAddr, mode := .running, schedule := .listing [] }.store s.fetchAddr.toNat (wordBytes w)

end Sys2Proof.Machine
end

