-- ==== Sys2Proof/Machine/Step.lean ====
section
/-! DEFINITION. One step of the machine: the next event of its schedule (spec/00_scope.md R7; log 1). And the
placing of a word where that `Step` fetches. -/

namespace Sys2Proof.Machine

/-- One event. -/
def step (s : State) : Host.Outcome State Fault Refusal := runEvent s.nextEvent s.popEvent

/-- `s` with the instruction of the table word `w` where the next step fetches and runs it (log 5). -/
def State.withFetchWord (s : State) (nbits w : Nat) : State := s.placeWord (tableWord nbits w)

end Sys2Proof.Machine
end

