-- ==== Sys2Proof/Machine/HostView.lean ====
section
/-! DEFINITION. What the host reads between events (spec/60_exceptions.md R196 to R198, 40_step.md R97); observation
changes nothing. The bitmap view is `State.pixel` (Machine/Ops.lean). -/

namespace Sys2Proof.Machine

/-- The result of a `Step` as the host sees it (40_step.md R97). -/
inductive StepReport where
  /-- Success: the mode after the step is `Running` or `AwaitingKey`. -/
  | ok
  /-- The mode after the step is `Halted`: the fault record. -/
  | faulted (r : FaultRecord)
  deriving DecidableEq, Repr

/-- The report that goes with the state a `Step` left (40_step.md R97); in `Halted` it is the recorded fault, again (R96). -/
def State.report (s : State) : StepReport :=
  match s.mode with
  | .halted => .faulted s.fault
  | _ => .ok

/-- `sound_active`, "derived as Sound timer > 0" (60_exceptions.md R198). -/
def State.soundActive (s : State) : Bool := decide (0 < s.st.toNat)

end Sys2Proof.Machine
end

