-- ==== Sys2Proof/Safety.lean ====
section
/-! DEFINITION. The terms claims are stated in: when a run has gone wrong or is finished, what holds in every state
reachable from reset (spec/10_state.md R39), and what it means that an instruction leaves a part of the state alone. -/

namespace Sys2Proof.Machine

/-- A run has gone wrong: "this state is never a successful end" (70_reset_and_hazards.md R224, 60_exceptions.md R189). -/
def State.goneWrong (s : State) : Bool := s.mode == .halted

/-- PC addresses a `JP` to itself in `Running` mode: the end of a run by the spec's own convention
(70_reset_and_hazards.md R224 b, 92_eei_decisions.md D29). -/
def State.finished (s : State) : Bool :=
  s.mode == .running && fetchable s.pc && s.wordAt s.pc.toNat == encode (.jp (s.pc.setWidth 12))

/-! ### Invariants -/

/-- A return address as `CALL` pushes it: even and in 0x002..0x1000 (10_state.md R39 b). -/
def returnAddress (a : Word) : Bool := !a.getLsbD 0 && decide (2 ≤ a.toNat) && decide (a.toNat ≤ 0x1000)

/-- Every live stack entry is a return address (10_state.md R39 b). -/
def State.stackOk (s : State) : Prop :=
  ∀ k : Fin 16, k.val < s.sp.val → returnAddress (s.stack[k.val]'(k.isLt)) = true

/-- PC is at most 0x10FE, the largest value it can take (10_state.md R26); while the executor waits for a key it addresses
the waiting instruction, which was fetched from there. -/
def State.pcOk (s : State) : Prop :=
  s.pc.toNat ≤ 0x10FE ∧ ∀ x, s.mode = .awaitingKey x → fetchable s.pc = true

/-- FAULT holds its reset value exactly while the machine is not `Halted`, and then a kind that is not `none`
(10_state.md R32, R39 e). -/
def State.faultOk (s : State) : Prop :=
  if s.mode = .halted then s.fault.kind ≠ .none else s.fault = .none

/-- Memory has its canonical form (log 10). -/
def State.memOk (s : State) : Prop := Memory.wf s.font s.mem = true

/-- What holds in every state reachable from reset (10_state.md R39 and R26, R32). -/
structure State.Inv (s : State) : Prop where
  mem : s.memOk
  stack : s.stackOk
  pc : s.pcOk
  fault : s.faultOk

/-! ### Schedules -/

/-- A schedule with its first `n` events taken off. -/
def Schedule.drop : Nat → Schedule → Schedule
  | 0, c => c
  | n + 1, c => Schedule.drop n c.rest

/-- The `k`-th event of a schedule, counted from 0. -/
def Schedule.event (c : Schedule) (k : Nat) : Event := (c.drop k).next

/-! ### Frames -/

/-- Every register but those of a list holds what it held. -/
def RegsKept (s t : State) (but : List RegIdx) : Prop := ∀ r, r ∉ but → t.getV r = s.getV r

/-- Every byte of memory reads as before. -/
def BytesKept (s t : State) : Prop := ∀ a, t.byteAt a = s.byteAt a

/-- Every pixel is as before. -/
def PixelsKept (s t : State) : Prop := ∀ row col, t.pixel row col = s.pixel row col

/-- `t` is `s` after a sequential instruction that may write registers and nothing else: PC + 2, and I, the stack, the
timers, the keys, the mode, the fault record, memory and the bitmap untouched. -/
def OnlyRegs (s t : State) : Prop :=
  t = { s with v := t.v, pc := s.pc + 2 } ∧ BytesKept s t ∧ PixelsKept s t

/-- `t` is `s` after an instruction that writes PC and nothing else. -/
def OnlyPc (s t : State) : Prop :=
  t = { s with pc := t.pc } ∧ RegsKept s t [] ∧ BytesKept s t ∧ PixelsKept s t

/-- `t` is `s` after a fault: MODE and FAULT written with the kind, PC, the opcode and the address given, and nothing else
(60_exceptions.md R186); the host is told of it (40_step.md R97). -/
def FaultEntered (s t : State) (kind : FaultKind) (opcode addr : Word) : Prop :=
  t = { s with mode := .halted, fault := ⟨kind, s.pc, opcode, addr⟩ } ∧
    RegsKept s t [] ∧ BytesKept s t ∧ PixelsKept s t ∧ t.report = .faulted ⟨kind, s.pc, opcode, addr⟩

/-- The pixels a `DRW Vx, Vy, n` names: bit 7 − c of the byte at I + r stands for row (Vy + r) mod 32 and column
(Vx + c) mod 64 (43_display.md R141). -/
def SpriteCovers (s : State) (x y : RegIdx) (n : Nibble) (row : Fin 32) (col : Fin 64) : Prop :=
  ∃ r < n.toNat, ∃ c < 8, (s.byteAt (s.i.toNat + r)).getLsbD (7 - c) = true ∧
    row.val = ((s.getV y).toNat + r) % 32 ∧ col.val = ((s.getV x).toNat + c) % 64

/-- `t` is `s` after a flag-writing ALU instruction with result `r` and flag `f`: VF ends as the flag, Vx as the result
unless x is 15, and nothing else is written but PC (41_alu.md R110). -/
def FlagWritten (s t : State) (x : RegIdx) (r : Byte) (f : Prop) : Prop :=
  (f → t.getV 15 = 0x01) ∧ (¬ f → t.getV 15 = 0x00) ∧ (x ≠ 15 → t.getV x = r) ∧ RegsKept s t [x, 15] ∧ OnlyRegs s t

/-- `t` is `s` after a skip on the condition `c` (10_state.md R25). -/
def Skipped (s t : State) (c : Prop) : Prop :=
  (c → t.pc = s.pc + 4) ∧ (¬ c → t.pc = s.pc + 2) ∧ OnlyPc s t

/-- Key `k` is down and was not at the executor's last sample (40_step.md R95). -/
def NewlyDown (s : State) (k : Fin 16) : Prop := s.keys.getLsbD k.val = true ∧ s.keyPrev.getLsbD k.val = false

/-- The registers an instruction may write: its destinations, and VF for the six flag-writing ones (10_state.md R22). -/
def mayWriteReg : Instr → RegIdx → Prop
  | .ldImm x _, r | .addImm x _, r | .ldReg x _, r | .orReg x _, r | .andReg x _, r | .xorReg x _, r
  | .rnd x _, r | .ldVxDt x, r => r = x
  | .addReg x _, r | .sub x _, r | .shr x _, r | .subn x _, r | .shl x _, r => r = x ∨ r = 15
  | .draw _ _ _, r => r = 15
  | .readM x, r => r.toNat ≤ x.toNat
  | _, _ => False

/-- The highest offset of the access through I, for the four instructions that make one; none for a sprite of no rows
(20_memory.md R54). -/
def accessReach : Instr → Option Nat
  | .draw _ _ n => if n = 0 then none else some (n.toNat - 1)
  | .movBcd _ => some 2
  | .writeM x | .readM x => some x.toNat
  | _ => none

/-- A list of instructions executed one after another, stopping where one does not answer a next state or enters
`Halted`. -/
def execAll : List Instr → State → Outcome
  | [], s => .next s
  | i :: is, s =>
    match exec i s with
    | .next t => if t.mode = .halted then .next t else execAll is t
    | .fault r => .fault r
    | .refused r => .refused r

end Sys2Proof.Machine
end

