-- ==== Sys2Proof/Certificates/Slice0/Obligations.lean ====
section
/-! DEFINITION. The statements for the provers. Each docstring names the rule of spec/ it formalises; where a clause rests
on the spec's own decision (D<n> of 92_eei_decisions.md) or on general knowledge (GK<n>), or on a choice of the model
(log <n>), it says so. -/

open Sys2Proof Sys2Proof.Machine

/-! ### Encoding -/

/-- Words written out from the encodings of 30_encoding.md R72 and R76 decode to the instructions they stand for, at least
one of every family, and the all-zero word is unknown (R80). -/
def Obligations.HandWrittenWordsDecode : Prop :=
  (decode 0x00E0#16 = .ok .cls ∧ decode 0xD125#16 = .ok (.draw 1 2 5)) ∧
  (decode 0x00EE#16 = .ok .ret ∧ decode 0x1204#16 = .ok (.jp 0x204) ∧ decode 0x2210#16 = .ok (.call 0x210) ∧
    decode 0xB300#16 = .ok (.jpV0 0x300)) ∧
  (decode 0x3156#16 = .ok (.seImm 1 0x56) ∧ decode 0x501F#16 = .ok (.seReg 0 1) ∧ decode 0x9017#16 = .ok (.sneReg 0 1) ∧
    decode 0xE29E#16 = .ok (.skipKey 2) ∧ decode 0xE2A1#16 = .ok (.skipNoKey 2)) ∧
  (decode 0x63AB#16 = .ok (.ldImm 3 0xAB) ∧ decode 0x8F14#16 = .ok (.addReg 15 1) ∧ decode 0x82A6#16 = .ok (.shr 2 10) ∧
    decode 0xC10F#16 = .ok (.rnd 1 0x0F)) ∧
  (decode 0xA2FE#16 = .ok (.ldI 0x2FE) ∧ decode 0xF21E#16 = .ok (.addI 2) ∧ decode 0xF029#16 = .ok (.ldF 0) ∧
    decode 0xF033#16 = .ok (.movBcd 0) ∧ decode 0xF155#16 = .ok (.writeM 1) ∧ decode 0xF265#16 = .ok (.readM 2)) ∧
  (decode 0xF407#16 = .ok (.ldVxDt 4) ∧ decode 0xF30A#16 = .ok (.waitKey 3) ∧ decode 0xF315#16 = .ok (.ldDtVx 3) ∧
    decode 0xF318#16 = .ok (.ldStVx 3)) ∧
  decode 0x0000#16 = .error (.unknownOpcode 0x0000)

/-- Decode and encode agree, for all 34 instructions and every value of every operand, also on a list of bytes (R70 to R74,
20_memory.md R51; field positions GK5). -/
def Obligations.EncodedInstructionsDecodeBack : Prop :=
  ∀ (i : Instr) (rest : List Byte),
    decode (encode i) = .ok i ∧ decodeBytes (encodeBytes i ++ rest) = .ok (i, rest)

/-- No bit of a word is lost in decoding but the ignored low nibble of `5xy_` and `9xy_` (R78, decision D13). -/
def Obligations.DecodedWordsEncodeBack : Prop :=
  ∀ (w : Word) (i : Instr), decode w = .ok i →
    match i with
    | .seReg _ _ | .sneReg _ _ => encode i = w &&& 0xFFF0#16
    | _ => encode i = w

/-- "decode(w) either returns exactly one well-defined Instruction or a decode error": a word that decodes selects exactly
the row of its instruction among the 34 of R76, every other word selects none and is `UnknownOpcode` (R75). -/
def Obligations.EachWordSelectsOneRowOrNone : Prop :=
  ∀ w : Word,
    (∀ i, decode w = .ok i → i.row ∈ opcodeTable ∧ ∀ r ∈ opcodeTable, r.selects w = true ↔ r = i.row) ∧
    (∀ e, decode w = .error e → e = .unknownOpcode w ∧ ∀ r ∈ opcodeTable, r.selects w = false)

/-- The words that raise `UnknownOpcode` are exactly the four illegal spaces of R79 (R80 by decision D2, sub-opcodes GK1). -/
def Obligations.IllegalWordsAreTheFourSpaces : Prop :=
  ∀ w : Word, (decode w = .error (.unknownOpcode w) ↔ wordLegal w = false) ∧ ((∃ i, decode w = .ok i) ↔ wordLegal w = true)

/-! ### The event Step -/

/-- A step runs the decoded instruction: in `Running` mode, when a `Step` is next and PC passes the fetch checks, the bytes at
PC and PC + 1, the lower address the more significant (20_memory.md R51), decode to `i`, and the step is `exec i` on the
state with that event taken off the schedule (40_step.md R91; the schedule is the model's, log 1). -/
def Obligations.StepRunsTheDecodedInstruction : Prop :=
  ∀ (s : State) (i : Instr), s.nextEvent = .step → s.mode = .running →
    s.pc.toNat + 1 ≤ 0xFFF → s.pc.toNat % 2 = 0 →
    decode (s.byteAt s.pc.toNat ++ s.byteAt (s.pc.toNat + 1)) = .ok i →
    step s = exec i s.popEvent ∧ s.popEvent = { s with schedule := s.schedule.rest }

/-- `Step` is a total function (40_step.md R90): no step faults, and a step is refused only where its event is a `Reset`
with an oversized image (70_reset_and_hazards.md R211). -/
def Obligations.OnlyOversizedResetStops : Prop :=
  (∀ (i : Instr) (s : State), ∃ t, exec i s = .next t) ∧
  ∀ s : State, (∃ t, step s = .next t) ∨
    ∃ image, s.nextEvent = .reset image ∧ 3584 < image.length ∧ step s = .refused (.imageTooLarge image.length)

/-- The fetch checks of 40_step.md R92 in their order (decisions D3 and D4): out of bounds first, then an odd PC. -/
def Obligations.FetchFaultsAreRaised : Prop :=
  ∀ s : State, s.nextEvent = .step → s.mode = .running →
    (0xFFF < s.pc.toNat + 1 → ∃ t, step s = .next t ∧ FaultEntered s.popEvent t .outOfBounds 0x0000 s.pc) ∧
    (s.pc.toNat + 1 ≤ 0xFFF → s.pc.toNat % 2 = 1 →
      ∃ t, step s = .next t ∧ FaultEntered s.popEvent t .misalignedPC 0x0000 s.pc)

/-- 40_step.md R93: a fetched word that does not decode raises `UnknownOpcode` with the word in the record. -/
def Obligations.UnknownWordsHalt : Prop :=
  ∀ (s : State) (w : Word), s.nextEvent = .step → s.mode = .running →
    s.pc.toNat + 1 ≤ 0xFFF → s.pc.toNat % 2 = 0 → w = s.byteAt s.pc.toNat ++ s.byteAt (s.pc.toNat + 1) →
    decode w = .error (.unknownOpcode w) →
    ∃ t, step s = .next t ∧ FaultEntered s.popEvent t .unknownOpcode w 0x0000

/-- A `Step` in `AwaitingKey(x)` (40_step.md R95, decision D15): the least newly pressed key completes the wait; with none
the machine goes on waiting; the keys are sampled in both cases. -/
def Obligations.WaitingStepPollsTheKeys : Prop :=
  ∀ (s : State) (x : RegIdx), s.nextEvent = .step → s.mode = .awaitingKey x →
    (∀ k : Fin 16, NewlyDown s k → (∀ j : Fin 16, j < k → ¬ NewlyDown s j) →
      ∃ t, step s = .next t ∧ (t.getV x).toNat = k.val ∧ RegsKept s t [x] ∧ BytesKept s t ∧ PixelsKept s t ∧
        t = { s.popEvent with v := t.v, pc := s.pc + 2, mode := .running, keyPrev := s.keys }) ∧
    ((∀ k : Fin 16, ¬ NewlyDown s k) → step s = .next { s.popEvent with keyPrev := s.keys })

/-- `Halted` is terminal (40_step.md R96, 10_state.md R39 d, decision D21): a `Step` changes nothing and the recorded fault
is reported again; no event but `Reset` changes anything other than DT, ST and KEYS. -/
def Obligations.HaltedIsTerminal : Prop :=
  ∀ s : State, s.mode = .halted →
    (s.nextEvent = .step → step s = .next s.popEvent ∧ s.popEvent.report = .faulted s.fault) ∧
    ((∀ image, s.nextEvent ≠ .reset image) →
      ∃ t, step s = .next t ∧ t = { s.popEvent with dt := t.dt, st := t.st, keys := t.keys } ∧
        BytesKept s t ∧ PixelsKept s t ∧ RegsKept s t [])

/-- There is no return from `Halted` and no second fault; the only exit is the host's `Reset`, which discards all state with
FAULT (60_exceptions.md, "Return and nesting"). After it every element is at its reset value (by decision D19, log 7) and
memory holds the image and else its reset bytes (D16); the model's own font, draws and schedule stay (logs 1 to 3). A halted
state has gone wrong and is never a finished one (the convention of D29). -/
def Obligations.HaltedIsLeftOnlyByReset : Prop :=
  ∀ s t : State, s.mode = .halted → step s = .next t →
    s.goneWrong = true ∧ s.finished = false ∧
    ((t.mode = .halted ∧ t.fault = s.fault ∧ t.pc = s.pc) ∨
      ∃ image, s.nextEvent = .reset image ∧ t.mode = .running ∧ t.fault = .none ∧
        t = { State.reset with mem := t.mem, font := s.font, draws := s.draws, schedule := s.schedule.rest } ∧
        ∀ a, t.byteAt a =
          if 0x200 ≤ a ∧ a < 0x200 + image.length then image.getD (a - 0x200) 0 else s.font.resetByte a)

/-- 60_exceptions.md R186: a `Step` in `Running` mode that ends in `Halted` has written MODE and FAULT and nothing else;
FAULT.pc is the PC of the faulting instruction, and the host is told of the record. -/
def Obligations.FaultsWriteOnlyModeAndFault : Prop :=
  ∀ s t : State, s.nextEvent = .step → s.mode = .running → step s = .next t → t.mode = .halted →
    ∃ kind opcode addr, kind ≠ .none ∧ FaultEntered s.popEvent t kind opcode addr

/-- The table of 60_exceptions.md R181 (its record layout by decision D20): which kind a faulting `Step` records, when, and
with which opcode and address. The opcode of a fault after the fetch is the fetched word (the model encodes the instruction
to get it, log 6). -/
def Obligations.FaultRecordsAreAsTabled : Prop :=
  ∀ (s t : State) (w : Word), s.nextEvent = .step → s.mode = .running → step s = .next t → t.mode = .halted →
    w = s.byteAt s.pc.toNat ++ s.byteAt (s.pc.toNat + 1) →
    if 0xFFF < s.pc.toNat + 1 then t.fault = ⟨.outOfBounds, s.pc, 0, s.pc⟩
    else if s.pc.toNat % 2 = 1 then t.fault = ⟨.misalignedPC, s.pc, 0, s.pc⟩
    else if wordLegal w = false then t.fault = ⟨.unknownOpcode, s.pc, w, 0⟩
    else
      (w = 0x00EE ∧ s.sp.val = 0 ∧ t.fault = ⟨.stackUnderflow, s.pc, w, 0⟩) ∨
      ((∃ nnn, decode w = .ok (.call nnn)) ∧ s.sp.val = 16 ∧ t.fault = ⟨.stackOverflow, s.pc, w, 0⟩) ∨
      (∃ i m, decode w = .ok i ∧ accessReach i = some m ∧ 0xFFF < s.i.toNat + m ∧
        t.fault = ⟨.outOfBounds, s.pc, w, s.i⟩)

/-- How each instruction class advances PC (10_state.md, the table of section 4). A faulting instruction leaves it; `CALL`
goes to its target after pushing PC + 2 (decision D6); `JP V0` is not reduced (D5); `LD Vx, K` leaves PC, and the later
`Step` that sees a key press adds 2 (D15). When a skip's condition holds is said by 42_skip.md: the comparisons (register
forms by D13), and for `SKP` and `SKNP` the key Vx modulo 16 (D14). -/
def Obligations.EachClassAdvancesPc : Prop :=
  (∀ (i : Instr) (s t : State), s.mode = .running → exec i s = .next t →
    t.pc =
      if t.mode = .halted then s.pc
      else
        match i with
        | .seImm x kk => if s.getV x = kk then s.pc + 4 else s.pc + 2
        | .sneImm x kk => if s.getV x = kk then s.pc + 2 else s.pc + 4
        | .seReg x y => if s.getV x = s.getV y then s.pc + 4 else s.pc + 2
        | .sneReg x y => if s.getV x = s.getV y then s.pc + 2 else s.pc + 4
        | .skipKey x => if s.keys.getLsbD ((s.getV x).toNat % 16) = true then s.pc + 4 else s.pc + 2
        | .skipNoKey x => if s.keys.getLsbD ((s.getV x).toNat % 16) = true then s.pc + 2 else s.pc + 4
        | .jp nnn => BitVec.ofNat 16 nnn.toNat
        | .jpV0 nnn => BitVec.ofNat 16 (nnn.toNat + (s.getV 0).toNat)
        | .call nnn => BitVec.ofNat 16 nnn.toNat
        | .ret => s.stack.toList.getD (s.sp.val - 1) 0
        | .waitKey _ => s.pc
        | _ => s.pc + 2) ∧
  (∀ (nnn : Addr12) (s t : State) (k : Fin 16), s.sp.val = k.val → exec (.call nnn) s = .next t →
    t.stack[k.val]'(k.isLt) = s.pc + 2) ∧
  (∀ (s t : State) (x : RegIdx), s.nextEvent = .step → s.mode = .awaitingKey x → step s = .next t →
    t.pc = if t.mode = .running then s.pc + 2 else s.pc)

/-! ### The other events -/

/-- `Tick` decrements both timers, each with floor 0, in every mode (45_timers_keys.md R166, decision D21), and touches
nothing else; `sound_active` follows ST (60_exceptions.md R198). -/
def Obligations.TickDecrementsBothTimers : Prop :=
  ∀ s : State, s.nextEvent = .tick →
    ∃ t, step s = .next t ∧ t.dt.toNat = s.dt.toNat - 1 ∧ t.st.toNat = s.st.toNat - 1 ∧
      t = { s.popEvent with dt := t.dt, st := t.st } ∧ t.soundActive = decide (1 < s.st.toNat)

/-- `sound_active` is ST > 0, a function of ST alone (60_exceptions.md section 7). `LD ST, Vx` and `Tick` change it as they
change ST: it is set exactly when the new ST is not 0. No other instruction changes it, and of the events besides `Step`
only `Tick` and `Reset` (the latter by the reset value of ST, D19). A `Step` reports success, or in `Halted` the record of
FAULT (40_step.md section 5). -/
def Obligations.StatusOutputsFollowTheState : Prop :=
  (∀ s : State, s.soundActive = true ↔ 0 < s.st.toNat) ∧
  (∀ (x : RegIdx) (s : State), ∃ t, exec (.ldStVx x) s = .next t ∧ (t.soundActive = true ↔ s.getV x ≠ 0)) ∧
  (∀ s : State, s.nextEvent = .tick → ∃ t, step s = .next t ∧ (t.soundActive = true ↔ 1 < s.st.toNat)) ∧
  (∀ (i : Instr) (s t : State), exec i s = .next t → t.soundActive ≠ s.soundActive → ∃ x, i = .ldStVx x) ∧
  (∀ s t : State, step s = .next t → t.soundActive ≠ s.soundActive →
    s.nextEvent = .step ∨ s.nextEvent = .tick ∨ ∃ image, s.nextEvent = .reset image) ∧
  ∀ s : State, (s.mode = .halted → s.report = .faulted s.fault) ∧ (s.mode ≠ .halted → s.report = .ok)

/-- Any number of `Tick` events in a row, wherever they come from, subtracts that number with floor 0 and never wraps
(45_timers_keys.md R166). -/
def Obligations.RepeatedTicksStopAtZero : Prop :=
  ∀ (n : Nat) (s : State), (∀ k < n, s.schedule.event k = .tick) →
    ∃ t, Sys2Proof.core.run n s = .next t ∧ t.dt.toNat = s.dt.toNat - n ∧ t.st.toNat = s.st.toNat - n ∧
      t = { s with dt := t.dt, st := t.st, schedule := s.schedule.drop n }

/-- 45_timers_keys.md R167: `SetKeys(k)` replaces each key flag by the bit of `k`, in every mode, and touches nothing else,
not KEY_PREV either. -/
def Obligations.SetKeysReplacesTheFlags : Prop :=
  ∀ (s : State) (k : BitVec 16), s.nextEvent = .setKeys k →
    ∃ t, step s = .next t ∧ (∀ j : Fin 16, t.keys.getLsbD j.val = k.getLsbD j.val) ∧
      t = { s.popEvent with keys := t.keys }

/-- An accepted `Reset(image)` puts every element to its reset value and loads the font and the image byte for byte
(70_reset_and_hazards.md R210, values by decisions D16 and D19); font, draws and schedule are the model's
own fields (logs 1 to 3), and so is the canonical form of the memory list (log 10). -/
def Obligations.ResetLoadsFontAndImage : Prop :=
  ∀ (s : State) (image : List Byte), s.nextEvent = .reset image → image.length ≤ 3584 →
    ∃ t, step s = .next t ∧
      t = { State.reset with mem := t.mem, font := s.font, draws := s.draws, schedule := s.schedule.rest } ∧
      (∀ k, k < image.length → t.byteAt (0x200 + k) = image.getD k 0) ∧
      (∀ k : Fin 80, t.byteAt (s.font.base.val + k.val) = s.font.data[k.val]'(k.isLt)) ∧
      (∀ a, (a < s.font.base.val ∨ s.font.base.val + 80 ≤ a) → (a < 0x200 ∨ 0x200 + image.length ≤ a) → t.byteAt a = 0) ∧
      t.memOk

/-- A `Reset` with more than 3584 bytes is refused as a whole, and exactly then: no state
follows it. An accepted image is never truncated (70_reset_and_hazards.md section 1). The model's initial state is the
result of a successful `Reset`, of the empty image: the model's choice (log 5). -/
def Obligations.OversizedImageIsRefused : Prop :=
  (∀ (s : State) (image : List Byte), s.nextEvent = .reset image →
    (step s = .refused (.imageTooLarge image.length) ↔ 3584 < image.length) ∧
    (image.length ≤ 3584 →
      ∃ t, step s = .next t ∧ ∀ k, k < image.length → t.byteAt (0x200 + k) = image.getD k 0)) ∧
  step { State.reset with schedule := .listing [.reset []] } = .next State.reset

/-- What reset leaves: the table of 10_state.md R38 with the empty image and the default font (values by decisions D15, D16,
D19 and D20; default font log 3). -/
def Obligations.ResetValuesAreAsTabled : Prop :=
  (∀ x, State.reset.getV x = 0x00) ∧ State.reset.i = 0x0000 ∧ State.reset.pc = 0x200 ∧
  (∀ k : Fin 16, State.reset.stack[k.val]'(k.isLt) = 0x0000) ∧ State.reset.sp.val = 0 ∧
  State.reset.dt = 0x00 ∧ State.reset.st = 0x00 ∧ State.reset.keys = 0 ∧ State.reset.keyPrev = 0 ∧
  State.reset.mode = .running ∧ State.reset.fault = ⟨.none, 0, 0, 0⟩ ∧
  (∀ k : Fin 80, State.reset.byteAt k.val = Config.defaultFont.data[k.val]'(k.isLt)) ∧
  (∀ a, 80 ≤ a → State.reset.byteAt a = 0x00) ∧ ∀ row col, State.reset.pixel row col = false

/-! ### Invariants -/

/-- The invariant of 10_state.md R39 (with R26 and R32) holds at reset. -/
def Obligations.InvariantHoldsAtReset : Prop := State.reset.Inv

/-- Every event keeps the invariant of 10_state.md R39: memory in canonical form (log 10), every live stack entry even and
in 0x002..0x1000, PC at most 0x10FE (R26) and on the waiting instruction in `AwaitingKey`, FAULT none exactly outside
`Halted` (R32). -/
def Obligations.StepKeepsInvariant : Prop := ∀ s t : State, s.Inv → step s = .next t → t.Inv

/-- Every event keeps memory in its canonical form, in every state whose memory has it (log 10). -/
def Obligations.StepKeepsMemoryCanonical : Prop := ∀ s t : State, s.memOk → step s = .next t → t.memOk

/-! ### Register file and ALU -/

/-- `LD Vx, kk`, `LD Vx, Vy` and `ADD Vx, kk` complete in every state with the value of 41_alu.md R111, R113, R112; VF is
written only as the destination (decision D10; operations GK2). -/
def Obligations.LoadsAndAddImmediateWriteVx : Prop :=
  ∀ (x y : RegIdx) (kk : Byte) (s : State),
    (∃ t, exec (.ldImm x kk) s = .next t ∧ t.getV x = kk ∧ RegsKept s t [x] ∧ OnlyRegs s t) ∧
    (∃ t, exec (.ldReg x y) s = .next t ∧ t.getV x = s.getV y ∧ RegsKept s t [x] ∧ OnlyRegs s t) ∧
    (∃ t, exec (.addImm x kk) s = .next t ∧ (t.getV x).toNat = ((s.getV x).toNat + kk.toNat) % 256 ∧
      RegsKept s t [x] ∧ OnlyRegs s t)

/-- `OR`, `AND` and `XOR` complete in every state with the bitwise value of 41_alu.md R114 to R116; VF is written only as the
destination (decision D10; operations GK2). -/
def Obligations.LogicWritesVxBitwise : Prop :=
  ∀ (x y : RegIdx) (s : State),
    (∃ t, exec (.orReg x y) s = .next t ∧ RegsKept s t [x] ∧ OnlyRegs s t ∧
      ∀ b : Fin 8, (t.getV x).getLsbD b.val = ((s.getV x).getLsbD b.val || (s.getV y).getLsbD b.val)) ∧
    (∃ t, exec (.andReg x y) s = .next t ∧ RegsKept s t [x] ∧ OnlyRegs s t ∧
      ∀ b : Fin 8, (t.getV x).getLsbD b.val = ((s.getV x).getLsbD b.val && (s.getV y).getLsbD b.val)) ∧
    (∃ t, exec (.xorReg x y) s = .next t ∧ RegsKept s t [x] ∧ OnlyRegs s t ∧
      ∀ b : Fin 8, (t.getV x).getLsbD b.val = ((s.getV x).getLsbD b.val ^^ (s.getV y).getLsbD b.val))

/-- `ADD Vx, Vy` completes in every state: the sum modulo 256 and the carry in VF, written last (41_alu.md R117, R110;
decision D12). -/
def Obligations.AddWritesSumAndCarry : Prop :=
  ∀ (x y : RegIdx) (s : State), ∃ t, exec (.addReg x y) s = .next t ∧
    FlagWritten s t x (BitVec.ofNat 8 (((s.getV x).toNat + (s.getV y).toNat) % 256))
      (255 < (s.getV x).toNat + (s.getV y).toNat)

/-- `SUB` and `SUBN` complete in every state: the difference modulo 256 and NOT borrow in VF, written last (41_alu.md R118,
R120, R110; decision D12, operand order of SUBN GK2). -/
def Obligations.SubtractionsWriteDifferenceAndNotBorrow : Prop :=
  ∀ (x y : RegIdx) (s : State),
    (∃ t, exec (.sub x y) s = .next t ∧
      FlagWritten s t x (BitVec.ofNat 8 (((s.getV x).toNat + 256 - (s.getV y).toNat) % 256))
        ((s.getV y).toNat ≤ (s.getV x).toNat)) ∧
    (∃ t, exec (.subn x y) s = .next t ∧
      FlagWritten s t x (BitVec.ofNat 8 (((s.getV y).toNat + 256 - (s.getV x).toNat) % 256))
        ((s.getV x).toNat ≤ (s.getV y).toNat))

/-- `SHR` and `SHL` complete in every state: Vx shifted in place by one and the bit shifted out in VF, written last; y is
ignored (41_alu.md R119, R121, R110; decisions D11 and D12). -/
def Obligations.ShiftsWriteResultAndBitOut : Prop :=
  ∀ (x y : RegIdx) (s : State),
    (∃ t, exec (.shr x y) s = .next t ∧
      FlagWritten s t x (BitVec.ofNat 8 ((s.getV x).toNat / 2)) ((s.getV x).toNat % 2 = 1)) ∧
    (∃ t, exec (.shl x y) s = .next t ∧
      FlagWritten s t x (BitVec.ofNat 8 ((s.getV x).toNat * 2 % 256)) (128 ≤ (s.getV x).toNat))

/-- `RND` completes in every state and uses one draw: Vx is the free byte masked by kk, so no bit outside kk is set
(41_alu.md R122, decision D17; the draw is the free value of log 2, of which nothing is assumed). -/
def Obligations.RandomIsMasked : Prop :=
  ∀ (x : RegIdx) (kk : Byte) (s : State), ∃ t, exec (.rnd x kk) s = .next t ∧
    t.getV x = Config.draw8 s.draws &&& kk ∧ t.getV x &&& ~~~kk = 0 ∧ RegsKept s t [x] ∧
    t = { s with v := t.v, pc := s.pc + 2, draws := s.draws + 1 } ∧ BytesKept s t ∧ PixelsKept s t

/-! ### Skips -/

/-- The register-immediate and register-register skips complete in every state (42_skip.md R130 to R133; which nibble is
which comparison GK1): PC moves and nothing else. -/
def Obligations.ComparisonsSkip : Prop :=
  ∀ (x y : RegIdx) (kk : Byte) (s : State),
    (∃ t, exec (.seImm x kk) s = .next t ∧ Skipped s t (s.getV x = kk)) ∧
    (∃ t, exec (.sneImm x kk) s = .next t ∧ Skipped s t (s.getV x ≠ kk)) ∧
    (∃ t, exec (.seReg x y) s = .next t ∧ Skipped s t (s.getV x = s.getV y)) ∧
    (∃ t, exec (.sneReg x y) s = .next t ∧ Skipped s t (s.getV x ≠ s.getV y))

/-- The key skips complete in every state; the key number is Vx modulo 16 (42_skip.md R134, R135; decision D14). -/
def Obligations.KeyStateSkips : Prop :=
  ∀ (x : RegIdx) (s : State),
    (∃ t, exec (.skipKey x) s = .next t ∧ Skipped s t (s.keys.getLsbD ((s.getV x).toNat % 16) = true)) ∧
    (∃ t, exec (.skipNoKey x) s = .next t ∧ Skipped s t (s.keys.getLsbD ((s.getV x).toNat % 16) = false))

/-! ### Display -/

/-- 43_display.md R140: `CLS` is the word 0x00E0 and no other; it clears every pixel and changes nothing else but PC. The
surface is clear at init too. -/
def Obligations.ClsClearsOnlyTheBitmap : Prop :=
  (∀ w : Word, decode w = .ok .cls ↔ w = 0x00E0) ∧
  (∀ (s : State) (image : List Byte) (row : Fin 32) (col : Fin 64), (s.boot image).pixel row col = false) ∧
  ∀ s : State, ∃ t, exec .cls s = .next t ∧ (∀ row col, t.pixel row col = false) ∧
    t = { s with fb := t.fb, pc := s.pc + 2 } ∧ RegsKept s t [] ∧ BytesKept s t

/-- `DRW Vx, Vy, n` completes whenever its sprite is in memory or n is 0: each pixel the sprite names is inverted, every
other pixel kept, and VF says whether a named pixel was set (43_display.md R141, R142; decision D18, geometry GK4). -/
def Obligations.DrawXorsTheSprite : Prop :=
  ∀ (x y : RegIdx) (n : Nibble) (s : State), (n = 0 ∨ s.i.toNat + (n.toNat - 1) ≤ 0xFFF) →
    ∃ t, exec (.draw x y n) s = .next t ∧
      (∀ row col, SpriteCovers s x y n row col → t.pixel row col = !s.pixel row col) ∧
      (∀ row col, ¬ SpriteCovers s x y n row col → t.pixel row col = s.pixel row col) ∧
      ((∃ row col, SpriteCovers s x y n row col ∧ s.pixel row col = true) → t.getV 15 = 0x01) ∧
      ((∀ row col, SpriteCovers s x y n row col → s.pixel row col = false) → t.getV 15 = 0x00) ∧
      t = { s with v := t.v, fb := t.fb, pc := s.pc + 2 } ∧ RegsKept s t [15] ∧ BytesKept s t

/-- Drawing the same sprite twice at the same place restores the bitmap (43_display.md R141, corner case e, decision D18).
The second draw reports a collision exactly when a pixel the sprite names was clear before the first: that is what the
pseudocode of R141 gives; its corner case e says "if the sprite has any 1 bit", which holds from a clear bitmap only (log
13). The place is the same when the first draw, which writes VF, leaves both coordinates as they were. -/
def Obligations.DrawingTwiceRestoresTheBitmap : Prop :=
  ∀ (x y : RegIdx) (n : Nibble) (s : State), (n = 0 ∨ s.i.toNat + (n.toNat - 1) ≤ 0xFFF) →
    ∃ t, exec (.draw x y n) s = .next t ∧
      (t.getV x = s.getV x → t.getV y = s.getV y →
        ∃ u, exec (.draw x y n) t = .next u ∧ PixelsKept s u ∧
          ((∃ row col, SpriteCovers s x y n row col ∧ s.pixel row col = false) → u.getV 15 = 0x01) ∧
          ((∀ row col, SpriteCovers s x y n row col → s.pixel row col = true) → u.getV 15 = 0x00))

/-! ### Address register and memory -/

/-- 44_index_memory.md R150: `LD I, nnn` is a word with high nibble A; it completes in every state, whatever nnn, and writes
I and PC only. -/
def Obligations.LoadIWritesTheAddress : Prop :=
  ∀ nnn : Addr12, (∀ w : Word, decode w = .ok (.ldI nnn) ↔ w &&& 0xF000 = 0xA000 ∧ fieldNNN w = nnn) ∧
  ∀ s : State, ∃ t, exec (.ldI nnn) s = .next t ∧ t.i.toNat = nnn.toNat ∧
    t = { s with i := t.i, pc := s.pc + 2 } ∧ RegsKept s t [] ∧ BytesKept s t ∧ PixelsKept s t

/-- `ADD I, Vx` and `LD F, Vx` complete in every state and write I and PC only (44_index_memory.md R151, R152; no mask and
no flag by decision D8, the font by D16). -/
def Obligations.IndexInstructionsWriteI : Prop :=
  ∀ (x : RegIdx) (s : State),
    (∃ t, exec (.addI x) s = .next t ∧ t.i.toNat = (s.i.toNat + (s.getV x).toNat) % 65536 ∧
      t = { s with i := t.i, pc := s.pc + 2 } ∧ RegsKept s t [] ∧ BytesKept s t ∧ PixelsKept s t) ∧
    (∃ t, exec (.ldF x) s = .next t ∧ t.i.toNat = s.font.base.val + 5 * ((s.getV x).toNat % 16) ∧
      t = { s with i := t.i, pc := s.pc + 2 } ∧ RegsKept s t [] ∧ BytesKept s t ∧ PixelsKept s t)

/-- `LD B, Vx` completes whenever I, I + 1 and I + 2 exist: the three decimal digits at I, I + 1, I + 2, every other byte,
every register and every pixel as before (44_index_memory.md R154; sub-opcode GK1). -/
def Obligations.BcdStoresThreeDigits : Prop :=
  ∀ (x : RegIdx) (s : State), s.i.toNat + 2 ≤ 0xFFF →
    ∃ t, exec (.movBcd x) s = .next t ∧
      (t.byteAt s.i.toNat).toNat = (s.getV x).toNat / 100 ∧
      (t.byteAt (s.i.toNat + 1)).toNat = (s.getV x).toNat / 10 % 10 ∧
      (t.byteAt (s.i.toNat + 2)).toNat = (s.getV x).toNat % 10 ∧
      (∀ a, (a < s.i.toNat ∨ s.i.toNat + 2 < a) → t.byteAt a = s.byteAt a) ∧
      t = { s with mem := t.mem, pc := s.pc + 2 } ∧ RegsKept s t [] ∧ PixelsKept s t

/-- `LD [I], Vx` completes whenever I to I + x exist: V0 to Vx at I to I + x, every other byte, every register, I and every
pixel as before (44_index_memory.md R155, decision D26). -/
def Obligations.BlockStoreWritesV0ToVx : Prop :=
  ∀ (x : RegIdx) (s : State), s.i.toNat + x.toNat ≤ 0xFFF →
    ∃ t, exec (.writeM x) s = .next t ∧
      (∀ r : RegIdx, r.toNat ≤ x.toNat → t.byteAt (s.i.toNat + r.toNat) = s.getV r) ∧
      (∀ a, (a < s.i.toNat ∨ s.i.toNat + x.toNat < a) → t.byteAt a = s.byteAt a) ∧
      t = { s with mem := t.mem, pc := s.pc + 2 } ∧ RegsKept s t [] ∧ PixelsKept s t

/-- `LD Vx, [I]` completes whenever I to I + x exist: V0 to Vx from I to I + x, every other register, I, memory and every
pixel as before (44_index_memory.md R156, decision D26). -/
def Obligations.BlockLoadReadsV0ToVx : Prop :=
  ∀ (x : RegIdx) (s : State), s.i.toNat + x.toNat ≤ 0xFFF →
    ∃ t, exec (.readM x) s = .next t ∧
      (∀ r : RegIdx, r.toNat ≤ x.toNat → t.getV r = s.byteAt (s.i.toNat + r.toNat)) ∧
      (∀ r : RegIdx, x.toNat < r.toNat → t.getV r = s.getV r) ∧ OnlyRegs s t

/-- Both sites of `OutOfBounds` (60_exceptions.md section 1): a fetch at PC ≥ 0xFFF, and a data access whose highest byte
lies beyond 0xFFF, which reads and writes nothing. The opcode and address of the record are by the layout of decision D20,
the opcode being the encoding of the instruction (log 6). -/
def Obligations.OutOfBoundsHasTwoSites : Prop :=
  (∀ s : State, s.nextEvent = .step → s.mode = .running → 0xFFF ≤ s.pc.toNat →
    ∃ t, step s = .next t ∧ FaultEntered s.popEvent t .outOfBounds 0x0000 s.pc) ∧
  ∀ (x y : RegIdx) (n : Nibble) (s : State),
    (1 ≤ n.toNat → 0xFFF < s.i.toNat + n.toNat - 1 →
      ∃ t, exec (.draw x y n) s = .next t ∧ FaultEntered s t .outOfBounds (encode (.draw x y n)) s.i) ∧
    (0xFFF < s.i.toNat + 2 →
      ∃ t, exec (.movBcd x) s = .next t ∧ FaultEntered s t .outOfBounds (encode (.movBcd x)) s.i) ∧
    (0xFFF < s.i.toNat + x.toNat →
      (∃ t, exec (.writeM x) s = .next t ∧ FaultEntered s t .outOfBounds (encode (.writeM x)) s.i) ∧
      (∃ t, exec (.readM x) s = .next t ∧ FaultEntered s t .outOfBounds (encode (.readM x)) s.i))

/-- A word stored at the next PC by `LD [I], Vx` is the word the very next `Step` fetches and executes (20_memory.md R61,
decision D24). -/
def Obligations.StoredWordIsFetchedNext : Prop :=
  ∀ (x : RegIdx) (s : State) (i : Instr), s.mode = .running → s.nextEvent = .step →
    s.i.toNat = s.pc.toNat + 2 → s.pc.toNat % 2 = 0 → 1 ≤ x.toNat → s.i.toNat + x.toNat ≤ 0xFFF →
    decode (s.getV 0 ++ s.getV 1) = .ok i →
    ∃ t, exec (.writeM x) s = .next t ∧ step t = exec i t.popEvent

/-! ### Timers and keys -/

/-- 45_timers_keys.md R160, R161, R162: `LD Vx, DT`, `LD DT, Vx` and `LD ST, Vx`, each the words its pattern and mask select,
complete in every state; `sound_active` follows ST at once. DT is unchanged by the read, and no instruction reads ST: two
states that differ in ST alone give states that differ in ST alone. -/
def Obligations.TimerInstructionsMoveBytes : Prop :=
  (∀ (w : Word) (x : RegIdx),
    (decode w = .ok (.ldVxDt x) ↔ w &&& 0xF0FF = 0xF007 ∧ fieldX w = x) ∧
    (decode w = .ok (.ldDtVx x) ↔ w &&& 0xF0FF = 0xF015 ∧ fieldX w = x) ∧
    (decode w = .ok (.ldStVx x) ↔ w &&& 0xF0FF = 0xF018 ∧ fieldX w = x)) ∧
  (∀ (x : RegIdx) (s : State),
    (∃ t, exec (.ldVxDt x) s = .next t ∧ t.getV x = s.dt ∧ RegsKept s t [x] ∧ OnlyRegs s t) ∧
    (∃ t, exec (.ldDtVx x) s = .next t ∧ t = { s with dt := s.getV x, pc := s.pc + 2 } ∧
      RegsKept s t [] ∧ BytesKept s t ∧ PixelsKept s t) ∧
    (∃ t, exec (.ldStVx x) s = .next t ∧ t = { s with st := s.getV x, pc := s.pc + 2 } ∧
      (t.soundActive = true ↔ s.getV x ≠ 0) ∧ RegsKept s t [] ∧ BytesKept s t ∧ PixelsKept s t)) ∧
  ∀ (i : Instr) (s t : State) (b : Byte), exec i s = .next t →
    ∃ u, exec i { s with st := b } = .next u ∧ t = { u with st := t.st }

/-- `LD Vx, K` completes in every state by entering the wait (45_timers_keys.md R163, decision D15): PC keeps its address,
the keys are sampled, so a `Step` that follows with the keys unchanged still waits. -/
def Obligations.WaitKeyEntersTheWait : Prop :=
  ∀ (x : RegIdx) (s : State), ∃ t, exec (.waitKey x) s = .next t ∧
    t = { s with mode := .awaitingKey x, keyPrev := s.keys } ∧ RegsKept s t [] ∧ BytesKept s t ∧ PixelsKept s t ∧
    (t.nextEvent = .step → step t = .next t.popEvent)

/-! ### Control transfer -/

/-- 46_flow.md R170: `JP nnn` is a word with high nibble 1; it completes in every state, whatever the target, and writes PC
only. An odd target and the target 0xFFF fault at the next `Step`'s fetch, FAULT.pc being the target. A `JP` to its own
address changes nothing. -/
def Obligations.JumpGoesToItsTarget : Prop :=
  ∀ nnn : Addr12, (∀ w : Word, decode w = .ok (.jp nnn) ↔ w &&& 0xF000 = 0x1000 ∧ fieldNNN w = nnn) ∧
  ∀ s : State, ∃ t, exec (.jp nnn) s = .next t ∧ t.pc.toNat = nnn.toNat ∧ OnlyPc s t ∧
    (s.pc.toNat = nnn.toNat → t = s) ∧
    (t.nextEvent = .step → t.mode = .running →
      (nnn.toNat % 2 = 1 → nnn.toNat < 0xFFF →
        ∃ u, step t = .next u ∧ FaultEntered t.popEvent u .misalignedPC 0x0000 t.pc ∧ u.fault.pc.toNat = nnn.toNat) ∧
      (nnn.toNat = 0xFFF →
        ∃ u, step t = .next u ∧ FaultEntered t.popEvent u .outOfBounds 0x0000 t.pc ∧ u.fault.pc.toNat = nnn.toNat))

/-- `JP V0, nnn` completes in every state, whatever the target, and writes PC only; the offset register is V0 and the sum is
not reduced (46_flow.md R173; decision D5). -/
def Obligations.OffsetJumpAddsV0 : Prop :=
  ∀ (nnn : Addr12) (s : State),
    ∃ t, exec (.jpV0 nnn) s = .next t ∧ t.pc.toNat = nnn.toNat + (s.getV 0).toNat ∧ OnlyPc s t

/-- `CALL nnn` completes whenever fewer than 16 entries are held: PC + 2 is pushed at index SP, the other entries are kept,
and PC is the target (46_flow.md R171, decisions D6 and D7). -/
def Obligations.CallPushesTheReturnAddress : Prop :=
  ∀ (nnn : Addr12) (s : State), s.sp.val < 16 →
    ∃ t, exec (.call nnn) s = .next t ∧ t.sp.val = s.sp.val + 1 ∧ t.pc.toNat = nnn.toNat ∧
      (∀ k : Fin 16, t.stack[k.val]'(k.isLt) = if k.val = s.sp.val then s.pc + 2 else s.stack[k.val]'(k.isLt)) ∧
      t = { s with stack := t.stack, sp := t.sp, pc := t.pc } ∧ RegsKept s t [] ∧ BytesKept s t ∧ PixelsKept s t

/-- `RET` completes whenever an entry is held: PC is the most recent entry, with no + 2, SP is one less, and the array is
kept, the dead entry with it (46_flow.md R172). -/
def Obligations.RetPopsTheReturnAddress : Prop :=
  ∀ (s : State) (k : Fin 16), s.sp.val = k.val + 1 →
    ∃ t, exec .ret s = .next t ∧ t.sp.val = k.val ∧ t.pc = s.stack[k.val]'(k.isLt) ∧
      t = { s with sp := t.sp, pc := t.pc } ∧ RegsKept s t [] ∧ BytesKept s t ∧ PixelsKept s t

/-- `CALL` with SP = 16 raises `StackOverflow`, `RET` with SP = 0 raises `StackUnderflow`, and the 16th nested `CALL` (SP 15
to 16) succeeds (60_exceptions.md section 1, 46_flow.md; the depth 16 by decision D7). The opcode and address of the record
are by the layout of decision D20, the opcode being the encoding of the instruction (log 6). -/
def Obligations.StackFaultsAtTheLimits : Prop :=
  ∀ (nnn : Addr12) (s : State),
    (s.sp.val = 16 →
      ∃ t, exec (.call nnn) s = .next t ∧ FaultEntered s t .stackOverflow (encode (.call nnn)) 0x0000) ∧
    (s.sp.val = 0 → ∃ t, exec .ret s = .next t ∧ FaultEntered s t .stackUnderflow 0x00EE 0x0000) ∧
    (s.sp.val = 15 → ∃ t, exec (.call nnn) s = .next t ∧ t.sp.val = 16 ∧ t.mode = s.mode)

/-- "CALL/RET symmetry": k calls that fit on the stack, followed by k returns, end at the return address of the first call
with the depth and every live entry what they were (46_flow.md R172, read by 90_conflicts.md C3, decision D6). -/
def Obligations.CallsAndReturnsAreSymmetric : Prop :=
  ∀ (targets : List Addr12) (s : State), targets ≠ [] → s.mode = .running → s.sp.val + targets.length ≤ 16 →
    ∃ t, execAll (targets.map .call ++ List.replicate targets.length .ret) s = .next t ∧
      t = { s with stack := t.stack, pc := s.pc + 2 } ∧
      ∀ k : Fin 16, k.val < s.sp.val → t.stack[k.val]'(k.isLt) = s.stack[k.val]'(k.isLt)

/-- A `JP` to its own address repeats for ever with no other state change (46_flow.md R170, 70_reset_and_hazards.md R224 b;
the end of a run by decision D29). -/
def Obligations.SelfJumpChangesNothing : Prop :=
  ∀ s : State, s.finished = true → s.nextEvent = .step → step s = .next s.popEvent

/-! ### Whole-machine rules -/

/-- Who writes what: I only `LD I`, `ADD I`, `LD F` (10_state.md R23); the stack only `CALL`, SP only `CALL` and `RET` (R27,
R28); DT only `LD DT`, ST only `LD ST` (R29, R39 c); memory only `LD B` and `LD [I]` (R34); the bitmap only `CLS` and `DRW`
(R35); no instruction writes KEYS (R30); KEY_PREV only `LD Vx, K` (R33). Font, draws and schedule are the model's own. -/
def Obligations.EachElementHasItsWriters : Prop :=
  ∀ (i : Instr) (s t : State), exec i s = .next t →
    (t.i = s.i ∨ (∃ nnn, i = .ldI nnn) ∨ (∃ x, i = .addI x) ∨ ∃ x, i = .ldF x) ∧
    (t.stack = s.stack ∨ ∃ nnn, i = .call nnn) ∧ (t.sp = s.sp ∨ (∃ nnn, i = .call nnn) ∨ i = .ret) ∧
    (t.dt = s.dt ∨ ∃ x, i = .ldDtVx x) ∧ (t.st = s.st ∨ ∃ x, i = .ldStVx x) ∧
    (BytesKept s t ∨ (∃ x, i = .movBcd x) ∨ ∃ x, i = .writeM x) ∧
    (PixelsKept s t ∨ i = .cls ∨ ∃ x y n, i = .draw x y n) ∧
    t.keys = s.keys ∧ (t.keyPrev = s.keyPrev ∨ ∃ x, i = .waitKey x) ∧
    t.font = s.font ∧ (t.draws = s.draws ∨ ∃ x kk, i = .rnd x kk) ∧ t.schedule = s.schedule

/-- A register is written only by an instruction that has it as destination, and VF besides only by the six flag-writing
instructions (10_state.md R21, R22, decision D10). -/
def Obligations.OnlyDestinationsAndFlagsAreWritten : Prop :=
  ∀ (i : Instr) (s t : State) (r : RegIdx), exec i s = .next t → ¬ mayWriteReg i r → t.getV r = s.getV r

/-- Once the flag-writing instruction has run, VF is 0x00 or 0x01 (10_state.md R22, R39 f). -/
def Obligations.FlagIsZeroOrOne : Prop :=
  ∀ (i : Instr) (s t : State), s.mode = .running → exec i s = .next t → t.mode ≠ .halted →
    (∃ x y, i = .addReg x y ∨ i = .sub x y ∨ i = .shr x y ∨ i = .subn x y ∨ i = .shl x y ∨ ∃ n, i = .draw x y n) →
    t.getV 15 = 0x00 ∨ t.getV 15 = 0x01

/-- KEY_PREV is irrelevant outside `AwaitingKey` (10_state.md R33, decision D15): two states in `Running` mode that differ
only there step to states that differ at most there. -/
def Obligations.KeyPrevIsIrrelevantWhileRunning : Prop :=
  ∀ (s t : State) (k : BitVec 16), s.mode = .running → step s = .next t →
    ∃ u, step { s with keyPrev := k } = .next u ∧ { u with keyPrev := t.keyPrev } = t

/-- Dead stack entries are unobservable (10_state.md R27, 93_implementation_defined.md U15): two states that differ only at
indices from SP up step to states that differ at most there. -/
def Obligations.DeadStackEntriesAreUnobservable : Prop :=
  ∀ (s s' t : State), s' = { s with stack := s'.stack } →
    (∀ k : Fin 16, k.val < s.sp.val → s'.stack[k.val]'(k.isLt) = s.stack[k.val]'(k.isLt)) → step s = .next t →
    ∃ t', step s' = .next t' ∧ t' = { t with stack := t'.stack } ∧
      ∀ k : Fin 16, k.val < t.sp.val → t'.stack[k.val]'(k.isLt) = t.stack[k.val]'(k.isLt)

/-- A word placed with `withFetchWord` is run by the very next step, from every state (log 5), and it changes no byte but the
two it is stored in. -/
def Obligations.PlacedWordRunsNext : Prop :=
  ∀ (s : State) (nbits w : Nat) (i : Instr), decodeTableWord nbits w = some i →
    step (s.withFetchWord nbits w) = exec i (s.withFetchWord nbits w) ∧
    ∀ a, a ≠ (s.withFetchWord nbits w).pc.toNat → a ≠ (s.withFetchWord nbits w).pc.toNat + 1 →
      (s.withFetchWord nbits w).byteAt a = s.byteAt a

/-- The events of a run are those of the schedule, one by one: no step and no instruction adds, drops or reorders one
(00_scope.md section 4, decision D22; the schedule is the model's, log 1). A schedule can begin with any list of events, and
after it hold `Step` events, or any list over and over, or the one sequence of free events, of which nothing is assumed: so a
run with infinitely many `Tick` or `SetKeys` events is one of the model's runs. That an arbitrary infinite sequence is a
schedule is not said here: the free sequence stands for it, being an uninterpreted constant. -/
def Obligations.RunsFollowTheSchedule : Prop :=
  (∀ (n : Nat) (s t : State), Sys2Proof.core.run n s = .next t → t.schedule = s.schedule.drop n) ∧
  (∀ (n : Nat) (s t : State), Sys2Proof.core.run n s = .next t → t.nextEvent = s.schedule.event n) ∧
  ∀ (b : Beyond) (es : List Event),
    (∀ k, (h : k < es.length) → Schedule.event ⟨es, b⟩ k = es[k]) ∧
    ∀ k, Schedule.event ⟨es, b⟩ (es.length + k) =
      match b with
      | .steps => .step
      | .cycle e fs => (e :: fs).getD (k % (fs.length + 1)) .step
      | .free m => Config.freeEvent (m + k)
end

