-- ==== Sys2Proof/Laws/Decode.lean ====
section
/-! SUPPORT. The fields of a word in each format (spec/30_encoding.md R71, R72), and a word's mask in each format. -/

namespace Sys2Proof

section
variable (op x y n : Nibble) (kk : Byte) (nnn : Addr12)

@[simp] theorem fieldOp_formatNNN : fieldOp (formatNNN op nnn) = op :=
  BitVec.extractLsb'_append_eq_left

@[simp] theorem fieldNNN_formatNNN : fieldNNN (formatNNN op nnn) = nnn :=
  BitVec.extractLsb'_append_eq_right

@[simp] theorem fieldOp_formatXKK : fieldOp (formatXKK op x kk) = op :=
  (BitVec.extractLsb'_append_eq_of_le (xhi := op ++ x) (xlo := kk) (start := 12) (len := 4) (by decide)).trans
    BitVec.extractLsb'_append_eq_left

@[simp] theorem fieldX_formatXKK : fieldX (formatXKK op x kk) = x :=
  (BitVec.extractLsb'_append_eq_of_le (xhi := op ++ x) (xlo := kk) (start := 8) (len := 4) (by decide)).trans
    BitVec.extractLsb'_append_eq_right

@[simp] theorem fieldKK_formatXKK : fieldKK (formatXKK op x kk) = kk :=
  BitVec.extractLsb'_append_eq_right

@[simp] theorem fieldOp_formatXYN : fieldOp (formatXYN op x y n) = op :=
  ((BitVec.extractLsb'_append_eq_of_le (xhi := op ++ x ++ y) (xlo := n) (start := 12) (len := 4) (by decide)).trans
    (BitVec.extractLsb'_append_eq_of_le (xhi := op ++ x) (xlo := y) (start := 8) (len := 4) (by decide))).trans
    BitVec.extractLsb'_append_eq_left

@[simp] theorem fieldX_formatXYN : fieldX (formatXYN op x y n) = x :=
  ((BitVec.extractLsb'_append_eq_of_le (xhi := op ++ x ++ y) (xlo := n) (start := 8) (len := 4) (by decide)).trans
    (BitVec.extractLsb'_append_eq_of_le (xhi := op ++ x) (xlo := y) (start := 4) (len := 4) (by decide))).trans
    BitVec.extractLsb'_append_eq_right

@[simp] theorem fieldY_formatXYN : fieldY (formatXYN op x y n) = y :=
  (BitVec.extractLsb'_append_eq_of_le (xhi := op ++ x ++ y) (xlo := n) (start := 4) (len := 4) (by decide)).trans
    BitVec.extractLsb'_append_eq_right

@[simp] theorem fieldN_formatXYN : fieldN (formatXYN op x y n) = n :=
  BitVec.extractLsb'_append_eq_right

/-- The opcode mask 0xF000 keeps the opcode nibble of the format NNN. -/
theorem formatNNN_and_op : formatNNN op nnn &&& 0xF000#16 = formatNNN op 0 := by
  have h : 0xF000#16 = (BitVec.allOnes 4 ++ 0#12 : BitVec (4 + 12)) := rfl
  rw [formatNNN, h]
  exact BitVec.and_append.trans (by simp only [BitVec.and_allOnes, BitVec.and_zero]; rfl)

/-- The opcode mask 0xF000 keeps the opcode nibble of the format XKK. -/
theorem formatXKK_and_op : formatXKK op x kk &&& 0xF000#16 = formatXKK op 0 0 := by
  have h : 0xF000#16 = (BitVec.allOnes 4 ++ 0#4 ++ 0#8 : BitVec (4 + 4 + 8)) := rfl
  rw [formatXKK, h]
  exact BitVec.and_append.trans (by rw [BitVec.and_append]; simp only [BitVec.and_allOnes, BitVec.and_zero]; rfl)

/-- The mask 0xF0FF of the E and F families keeps all but the register index. -/
theorem formatXKK_and_low : formatXKK op x kk &&& 0xF0FF#16 = formatXKK op 0 kk := by
  have h : 0xF0FF#16 = (BitVec.allOnes 4 ++ 0#4 ++ BitVec.allOnes 8 : BitVec (4 + 4 + 8)) := rfl
  rw [formatXKK, h]
  exact BitVec.and_append.trans (by rw [BitVec.and_append]; simp only [BitVec.and_allOnes, BitVec.and_zero]; rfl)

/-- The opcode mask 0xF000 keeps the opcode nibble of the format XYN. -/
theorem formatXYN_and_op : formatXYN op x y n &&& 0xF000#16 = formatXYN op 0 0 0 := by
  have h : 0xF000#16 = (BitVec.allOnes 4 ++ 0#4 ++ 0#4 ++ 0#4 : BitVec (4 + 4 + 4 + 4)) := rfl
  rw [formatXYN, h]
  exact BitVec.and_append.trans (by rw [BitVec.and_append, BitVec.and_append]; simp only [BitVec.and_allOnes, BitVec.and_zero]; rfl)

/-- The mask 0xF00F of the 8 family keeps all but the register indices. -/
theorem formatXYN_and_low : formatXYN op x y n &&& 0xF00F#16 = formatXYN op 0 0 n := by
  have h : 0xF00F#16 = (BitVec.allOnes 4 ++ 0#4 ++ 0#4 ++ BitVec.allOnes 4 : BitVec (4 + 4 + 4 + 4)) := rfl
  rw [formatXYN, h]
  exact BitVec.and_append.trans (by rw [BitVec.and_append, BitVec.and_append]; simp only [BitVec.and_allOnes, BitVec.and_zero]; rfl)

end

/-- A word whose high nibble is not 0 is neither of the two exact words. -/
theorem decode_of_op {w : Word} (h : fieldOp w ≠ 0) : decode w = decodeByOp w := by
  rw [decode, if_neg, if_neg] <;> (rintro rfl; exact h (by decide))

/-- An error of the decoder names the word (spec/30_encoding.md R74). -/
theorem decode_error {w : Word} {e : DecodeError} (h : decode w = .error e) : e = .unknownOpcode w := by
  unfold decode decodeByOp decodeArith decodeKeys decodeMisc at h
  split at h
  · cases h
  · split at h
    · cases h
    · split at h <;> first | (cases h; done) | (cases h; rfl) | (split at h <;> first | (cases h; done) | (cases h; rfl))

/-- A word is its opcode nibble and its address. -/
theorem eq_formatNNN (w : Word) : w = formatNNN (fieldOp w) (fieldNNN w) := by
  apply BitVec.eq_of_toNat_eq
  have := w.isLt
  rw [formatNNN, show (fieldOp w ++ fieldNNN w : Word).toNat = (fieldOp w ++ fieldNNN w : BitVec (4 + 12)).toNat from rfl,
    BitVec.toNat_append, ← Nat.shiftLeft_add_eq_or_of_lt (BitVec.isLt _)]
  simp only [fieldOp, fieldNNN, BitVec.extractLsb'_toNat, Nat.shiftLeft_eq, Nat.shiftRight_eq_div_pow]
  omega

/-- A 12-bit address is a nibble and a byte. -/
theorem fieldNNN_eq (w : Word) : fieldNNN w = (fieldX w ++ fieldKK w : BitVec (4 + 8)) := by
  apply BitVec.eq_of_toNat_eq
  have := w.isLt
  rw [BitVec.toNat_append, ← Nat.shiftLeft_add_eq_or_of_lt (BitVec.isLt _)]
  simp only [fieldX, fieldKK, fieldNNN, BitVec.extractLsb'_toNat, Nat.shiftLeft_eq, Nat.shiftRight_eq_div_pow]
  omega

/-- A byte is two nibbles. -/
theorem fieldKK_eq (w : Word) : fieldKK w = (fieldY w ++ fieldN w : BitVec (4 + 4)) := by
  apply BitVec.eq_of_toNat_eq
  have := w.isLt
  rw [BitVec.toNat_append, ← Nat.shiftLeft_add_eq_or_of_lt (BitVec.isLt _)]
  simp only [fieldY, fieldKK, fieldN, BitVec.extractLsb'_toNat, Nat.shiftLeft_eq, Nat.shiftRight_eq_div_pow]
  omega

/-- A word is its opcode nibble, its first register index and its low byte. -/
theorem eq_formatXKK (w : Word) : w = formatXKK (fieldOp w) (fieldX w) (fieldKK w) := by
  conv_lhs => rw [eq_formatNNN w, fieldNNN_eq]
  exact BitVec.append_assoc'.trans rfl

/-- A word is its four nibbles. -/
theorem eq_formatXYN (w : Word) : w = formatXYN (fieldOp w) (fieldX w) (fieldY w) (fieldN w) := by
  conv_lhs => rw [eq_formatXKK w, fieldKK_eq]
  exact BitVec.append_assoc'.trans rfl

/-- A row that does not look at the first register index selects a word by its opcode nibble and its low byte alone. -/
theorem OpcodeRow.selects_eq {r : OpcodeRow} (h : r.mask &&& 0xF0FF#16 = r.mask) (w : Word) :
    r.selects w = r.selects (formatXKK (fieldOp w) 0 (fieldKK w)) := by
  have h1 : w &&& r.mask = w &&& 0xF0FF#16 &&& r.mask := by rw [BitVec.and_assoc, BitVec.and_comm 0xF0FF#16, h]
  have h2 : w &&& 0xF0FF#16 = formatXKK (fieldOp w) 0 (fieldKK w) := by
    conv_lhs => rw [eq_formatXKK w, formatXKK_and_low]
  rw [OpcodeRow.selects, OpcodeRow.selects, h1, h2]

end Sys2Proof
end

