-- ==== Sys2Proof/Laws/State.lean ====
section
/-! SUPPORT. What each named update of the state does to each field: true by definition, so that no later proof unfolds
a record update. And the register, byte and pixel readers over those updates. -/

namespace Sys2Proof.Machine

/-! ### setV -/

@[simp] theorem State.setV_v (s : State) (x : RegIdx) (b : Byte) : (s.setV x b).v = s.v.set x.toNat b x.isLt := rfl
@[simp] theorem State.setV_i (s : State) (x : RegIdx) (b : Byte) : (s.setV x b).i = s.i := rfl
@[simp] theorem State.setV_pc (s : State) (x : RegIdx) (b : Byte) : (s.setV x b).pc = s.pc := rfl
@[simp] theorem State.setV_stack (s : State) (x : RegIdx) (b : Byte) : (s.setV x b).stack = s.stack := rfl
@[simp] theorem State.setV_sp (s : State) (x : RegIdx) (b : Byte) : (s.setV x b).sp = s.sp := rfl
@[simp] theorem State.setV_dt (s : State) (x : RegIdx) (b : Byte) : (s.setV x b).dt = s.dt := rfl
@[simp] theorem State.setV_st (s : State) (x : RegIdx) (b : Byte) : (s.setV x b).st = s.st := rfl
@[simp] theorem State.setV_keys (s : State) (x : RegIdx) (b : Byte) : (s.setV x b).keys = s.keys := rfl
@[simp] theorem State.setV_mode (s : State) (x : RegIdx) (b : Byte) : (s.setV x b).mode = s.mode := rfl
@[simp] theorem State.setV_fault (s : State) (x : RegIdx) (b : Byte) : (s.setV x b).fault = s.fault := rfl
@[simp] theorem State.setV_keyPrev (s : State) (x : RegIdx) (b : Byte) : (s.setV x b).keyPrev = s.keyPrev := rfl
@[simp] theorem State.setV_mem (s : State) (x : RegIdx) (b : Byte) : (s.setV x b).mem = s.mem := rfl
@[simp] theorem State.setV_fb (s : State) (x : RegIdx) (b : Byte) : (s.setV x b).fb = s.fb := rfl
@[simp] theorem State.setV_font (s : State) (x : RegIdx) (b : Byte) : (s.setV x b).font = s.font := rfl
@[simp] theorem State.setV_draws (s : State) (x : RegIdx) (b : Byte) : (s.setV x b).draws = s.draws := rfl
@[simp] theorem State.setV_schedule (s : State) (x : RegIdx) (b : Byte) : (s.setV x b).schedule = s.schedule := rfl

/-! ### setPc -/

@[simp] theorem State.setPc_v (s : State) (a : Word) : (s.setPc a).v = s.v := rfl
@[simp] theorem State.setPc_i (s : State) (a : Word) : (s.setPc a).i = s.i := rfl
@[simp] theorem State.setPc_pc (s : State) (a : Word) : (s.setPc a).pc = a := rfl
@[simp] theorem State.setPc_stack (s : State) (a : Word) : (s.setPc a).stack = s.stack := rfl
@[simp] theorem State.setPc_sp (s : State) (a : Word) : (s.setPc a).sp = s.sp := rfl
@[simp] theorem State.setPc_dt (s : State) (a : Word) : (s.setPc a).dt = s.dt := rfl
@[simp] theorem State.setPc_st (s : State) (a : Word) : (s.setPc a).st = s.st := rfl
@[simp] theorem State.setPc_keys (s : State) (a : Word) : (s.setPc a).keys = s.keys := rfl
@[simp] theorem State.setPc_mode (s : State) (a : Word) : (s.setPc a).mode = s.mode := rfl
@[simp] theorem State.setPc_fault (s : State) (a : Word) : (s.setPc a).fault = s.fault := rfl
@[simp] theorem State.setPc_keyPrev (s : State) (a : Word) : (s.setPc a).keyPrev = s.keyPrev := rfl
@[simp] theorem State.setPc_mem (s : State) (a : Word) : (s.setPc a).mem = s.mem := rfl
@[simp] theorem State.setPc_fb (s : State) (a : Word) : (s.setPc a).fb = s.fb := rfl
@[simp] theorem State.setPc_font (s : State) (a : Word) : (s.setPc a).font = s.font := rfl
@[simp] theorem State.setPc_draws (s : State) (a : Word) : (s.setPc a).draws = s.draws := rfl
@[simp] theorem State.setPc_schedule (s : State) (a : Word) : (s.setPc a).schedule = s.schedule := rfl

/-! ### advance -/

@[simp] theorem State.advance_v (s : State) : (s.advance).v = s.v := rfl
@[simp] theorem State.advance_i (s : State) : (s.advance).i = s.i := rfl
@[simp] theorem State.advance_pc (s : State) : (s.advance).pc = s.pc + 2 := rfl
@[simp] theorem State.advance_stack (s : State) : (s.advance).stack = s.stack := rfl
@[simp] theorem State.advance_sp (s : State) : (s.advance).sp = s.sp := rfl
@[simp] theorem State.advance_dt (s : State) : (s.advance).dt = s.dt := rfl
@[simp] theorem State.advance_st (s : State) : (s.advance).st = s.st := rfl
@[simp] theorem State.advance_keys (s : State) : (s.advance).keys = s.keys := rfl
@[simp] theorem State.advance_mode (s : State) : (s.advance).mode = s.mode := rfl
@[simp] theorem State.advance_fault (s : State) : (s.advance).fault = s.fault := rfl
@[simp] theorem State.advance_keyPrev (s : State) : (s.advance).keyPrev = s.keyPrev := rfl
@[simp] theorem State.advance_mem (s : State) : (s.advance).mem = s.mem := rfl
@[simp] theorem State.advance_fb (s : State) : (s.advance).fb = s.fb := rfl
@[simp] theorem State.advance_font (s : State) : (s.advance).font = s.font := rfl
@[simp] theorem State.advance_draws (s : State) : (s.advance).draws = s.draws := rfl
@[simp] theorem State.advance_schedule (s : State) : (s.advance).schedule = s.schedule := rfl

/-! ### setI -/

@[simp] theorem State.setI_v (s : State) (a : Word) : (s.setI a).v = s.v := rfl
@[simp] theorem State.setI_i (s : State) (a : Word) : (s.setI a).i = a := rfl
@[simp] theorem State.setI_pc (s : State) (a : Word) : (s.setI a).pc = s.pc := rfl
@[simp] theorem State.setI_stack (s : State) (a : Word) : (s.setI a).stack = s.stack := rfl
@[simp] theorem State.setI_sp (s : State) (a : Word) : (s.setI a).sp = s.sp := rfl
@[simp] theorem State.setI_dt (s : State) (a : Word) : (s.setI a).dt = s.dt := rfl
@[simp] theorem State.setI_st (s : State) (a : Word) : (s.setI a).st = s.st := rfl
@[simp] theorem State.setI_keys (s : State) (a : Word) : (s.setI a).keys = s.keys := rfl
@[simp] theorem State.setI_mode (s : State) (a : Word) : (s.setI a).mode = s.mode := rfl
@[simp] theorem State.setI_fault (s : State) (a : Word) : (s.setI a).fault = s.fault := rfl
@[simp] theorem State.setI_keyPrev (s : State) (a : Word) : (s.setI a).keyPrev = s.keyPrev := rfl
@[simp] theorem State.setI_mem (s : State) (a : Word) : (s.setI a).mem = s.mem := rfl
@[simp] theorem State.setI_fb (s : State) (a : Word) : (s.setI a).fb = s.fb := rfl
@[simp] theorem State.setI_font (s : State) (a : Word) : (s.setI a).font = s.font := rfl
@[simp] theorem State.setI_draws (s : State) (a : Word) : (s.setI a).draws = s.draws := rfl
@[simp] theorem State.setI_schedule (s : State) (a : Word) : (s.setI a).schedule = s.schedule := rfl

/-! ### store -/

@[simp] theorem State.store_v (s : State) (a : Nat) (vs : List Byte) : (s.store a vs).v = s.v := rfl
@[simp] theorem State.store_i (s : State) (a : Nat) (vs : List Byte) : (s.store a vs).i = s.i := rfl
@[simp] theorem State.store_pc (s : State) (a : Nat) (vs : List Byte) : (s.store a vs).pc = s.pc := rfl
@[simp] theorem State.store_stack (s : State) (a : Nat) (vs : List Byte) : (s.store a vs).stack = s.stack := rfl
@[simp] theorem State.store_sp (s : State) (a : Nat) (vs : List Byte) : (s.store a vs).sp = s.sp := rfl
@[simp] theorem State.store_dt (s : State) (a : Nat) (vs : List Byte) : (s.store a vs).dt = s.dt := rfl
@[simp] theorem State.store_st (s : State) (a : Nat) (vs : List Byte) : (s.store a vs).st = s.st := rfl
@[simp] theorem State.store_keys (s : State) (a : Nat) (vs : List Byte) : (s.store a vs).keys = s.keys := rfl
@[simp] theorem State.store_mode (s : State) (a : Nat) (vs : List Byte) : (s.store a vs).mode = s.mode := rfl
@[simp] theorem State.store_fault (s : State) (a : Nat) (vs : List Byte) : (s.store a vs).fault = s.fault := rfl
@[simp] theorem State.store_keyPrev (s : State) (a : Nat) (vs : List Byte) : (s.store a vs).keyPrev = s.keyPrev := rfl
@[simp] theorem State.store_mem (s : State) (a : Nat) (vs : List Byte) : (s.store a vs).mem = Memory.writeAll s.font s.mem a vs := rfl
@[simp] theorem State.store_fb (s : State) (a : Nat) (vs : List Byte) : (s.store a vs).fb = s.fb := rfl
@[simp] theorem State.store_font (s : State) (a : Nat) (vs : List Byte) : (s.store a vs).font = s.font := rfl
@[simp] theorem State.store_draws (s : State) (a : Nat) (vs : List Byte) : (s.store a vs).draws = s.draws := rfl
@[simp] theorem State.store_schedule (s : State) (a : Nat) (vs : List Byte) : (s.store a vs).schedule = s.schedule := rfl

/-! ### loadRegs -/

@[simp] theorem State.loadRegs_v (s : State) (x : RegIdx) (a : Nat) : (s.loadRegs x a).v = Vector.ofFn fun i => if i.val ≤ x.toNat then s.byteAt (a + i.val) else s.v[i.val]'(i.isLt) := rfl
@[simp] theorem State.loadRegs_i (s : State) (x : RegIdx) (a : Nat) : (s.loadRegs x a).i = s.i := rfl
@[simp] theorem State.loadRegs_pc (s : State) (x : RegIdx) (a : Nat) : (s.loadRegs x a).pc = s.pc := rfl
@[simp] theorem State.loadRegs_stack (s : State) (x : RegIdx) (a : Nat) : (s.loadRegs x a).stack = s.stack := rfl
@[simp] theorem State.loadRegs_sp (s : State) (x : RegIdx) (a : Nat) : (s.loadRegs x a).sp = s.sp := rfl
@[simp] theorem State.loadRegs_dt (s : State) (x : RegIdx) (a : Nat) : (s.loadRegs x a).dt = s.dt := rfl
@[simp] theorem State.loadRegs_st (s : State) (x : RegIdx) (a : Nat) : (s.loadRegs x a).st = s.st := rfl
@[simp] theorem State.loadRegs_keys (s : State) (x : RegIdx) (a : Nat) : (s.loadRegs x a).keys = s.keys := rfl
@[simp] theorem State.loadRegs_mode (s : State) (x : RegIdx) (a : Nat) : (s.loadRegs x a).mode = s.mode := rfl
@[simp] theorem State.loadRegs_fault (s : State) (x : RegIdx) (a : Nat) : (s.loadRegs x a).fault = s.fault := rfl
@[simp] theorem State.loadRegs_keyPrev (s : State) (x : RegIdx) (a : Nat) : (s.loadRegs x a).keyPrev = s.keyPrev := rfl
@[simp] theorem State.loadRegs_mem (s : State) (x : RegIdx) (a : Nat) : (s.loadRegs x a).mem = s.mem := rfl
@[simp] theorem State.loadRegs_fb (s : State) (x : RegIdx) (a : Nat) : (s.loadRegs x a).fb = s.fb := rfl
@[simp] theorem State.loadRegs_font (s : State) (x : RegIdx) (a : Nat) : (s.loadRegs x a).font = s.font := rfl
@[simp] theorem State.loadRegs_draws (s : State) (x : RegIdx) (a : Nat) : (s.loadRegs x a).draws = s.draws := rfl
@[simp] theorem State.loadRegs_schedule (s : State) (x : RegIdx) (a : Nat) : (s.loadRegs x a).schedule = s.schedule := rfl

/-! ### raise -/

@[simp] theorem State.raise_v (s : State) (k : FaultKind) (w a : Word) : (s.raise k w a).v = s.v := rfl
@[simp] theorem State.raise_i (s : State) (k : FaultKind) (w a : Word) : (s.raise k w a).i = s.i := rfl
@[simp] theorem State.raise_pc (s : State) (k : FaultKind) (w a : Word) : (s.raise k w a).pc = s.pc := rfl
@[simp] theorem State.raise_stack (s : State) (k : FaultKind) (w a : Word) : (s.raise k w a).stack = s.stack := rfl
@[simp] theorem State.raise_sp (s : State) (k : FaultKind) (w a : Word) : (s.raise k w a).sp = s.sp := rfl
@[simp] theorem State.raise_dt (s : State) (k : FaultKind) (w a : Word) : (s.raise k w a).dt = s.dt := rfl
@[simp] theorem State.raise_st (s : State) (k : FaultKind) (w a : Word) : (s.raise k w a).st = s.st := rfl
@[simp] theorem State.raise_keys (s : State) (k : FaultKind) (w a : Word) : (s.raise k w a).keys = s.keys := rfl
@[simp] theorem State.raise_mode (s : State) (k : FaultKind) (w a : Word) : (s.raise k w a).mode = .halted := rfl
@[simp] theorem State.raise_fault (s : State) (k : FaultKind) (w a : Word) : (s.raise k w a).fault = ⟨k, s.pc, w, a⟩ := rfl
@[simp] theorem State.raise_keyPrev (s : State) (k : FaultKind) (w a : Word) : (s.raise k w a).keyPrev = s.keyPrev := rfl
@[simp] theorem State.raise_mem (s : State) (k : FaultKind) (w a : Word) : (s.raise k w a).mem = s.mem := rfl
@[simp] theorem State.raise_fb (s : State) (k : FaultKind) (w a : Word) : (s.raise k w a).fb = s.fb := rfl
@[simp] theorem State.raise_font (s : State) (k : FaultKind) (w a : Word) : (s.raise k w a).font = s.font := rfl
@[simp] theorem State.raise_draws (s : State) (k : FaultKind) (w a : Word) : (s.raise k w a).draws = s.draws := rfl
@[simp] theorem State.raise_schedule (s : State) (k : FaultKind) (w a : Word) : (s.raise k w a).schedule = s.schedule := rfl

/-! ### tick -/

@[simp] theorem State.tick_v (s : State) : (s.tick).v = s.v := rfl
@[simp] theorem State.tick_i (s : State) : (s.tick).i = s.i := rfl
@[simp] theorem State.tick_pc (s : State) : (s.tick).pc = s.pc := rfl
@[simp] theorem State.tick_stack (s : State) : (s.tick).stack = s.stack := rfl
@[simp] theorem State.tick_sp (s : State) : (s.tick).sp = s.sp := rfl
@[simp] theorem State.tick_dt (s : State) : (s.tick).dt = countDown s.dt := rfl
@[simp] theorem State.tick_st (s : State) : (s.tick).st = countDown s.st := rfl
@[simp] theorem State.tick_keys (s : State) : (s.tick).keys = s.keys := rfl
@[simp] theorem State.tick_mode (s : State) : (s.tick).mode = s.mode := rfl
@[simp] theorem State.tick_fault (s : State) : (s.tick).fault = s.fault := rfl
@[simp] theorem State.tick_keyPrev (s : State) : (s.tick).keyPrev = s.keyPrev := rfl
@[simp] theorem State.tick_mem (s : State) : (s.tick).mem = s.mem := rfl
@[simp] theorem State.tick_fb (s : State) : (s.tick).fb = s.fb := rfl
@[simp] theorem State.tick_font (s : State) : (s.tick).font = s.font := rfl
@[simp] theorem State.tick_draws (s : State) : (s.tick).draws = s.draws := rfl
@[simp] theorem State.tick_schedule (s : State) : (s.tick).schedule = s.schedule := rfl

/-! ### setKeys -/

@[simp] theorem State.setKeys_v (s : State) (k : BitVec 16) : (s.setKeys k).v = s.v := rfl
@[simp] theorem State.setKeys_i (s : State) (k : BitVec 16) : (s.setKeys k).i = s.i := rfl
@[simp] theorem State.setKeys_pc (s : State) (k : BitVec 16) : (s.setKeys k).pc = s.pc := rfl
@[simp] theorem State.setKeys_stack (s : State) (k : BitVec 16) : (s.setKeys k).stack = s.stack := rfl
@[simp] theorem State.setKeys_sp (s : State) (k : BitVec 16) : (s.setKeys k).sp = s.sp := rfl
@[simp] theorem State.setKeys_dt (s : State) (k : BitVec 16) : (s.setKeys k).dt = s.dt := rfl
@[simp] theorem State.setKeys_st (s : State) (k : BitVec 16) : (s.setKeys k).st = s.st := rfl
@[simp] theorem State.setKeys_keys (s : State) (k : BitVec 16) : (s.setKeys k).keys = k := rfl
@[simp] theorem State.setKeys_mode (s : State) (k : BitVec 16) : (s.setKeys k).mode = s.mode := rfl
@[simp] theorem State.setKeys_fault (s : State) (k : BitVec 16) : (s.setKeys k).fault = s.fault := rfl
@[simp] theorem State.setKeys_keyPrev (s : State) (k : BitVec 16) : (s.setKeys k).keyPrev = s.keyPrev := rfl
@[simp] theorem State.setKeys_mem (s : State) (k : BitVec 16) : (s.setKeys k).mem = s.mem := rfl
@[simp] theorem State.setKeys_fb (s : State) (k : BitVec 16) : (s.setKeys k).fb = s.fb := rfl
@[simp] theorem State.setKeys_font (s : State) (k : BitVec 16) : (s.setKeys k).font = s.font := rfl
@[simp] theorem State.setKeys_draws (s : State) (k : BitVec 16) : (s.setKeys k).draws = s.draws := rfl
@[simp] theorem State.setKeys_schedule (s : State) (k : BitVec 16) : (s.setKeys k).schedule = s.schedule := rfl

/-! ### popEvent -/

@[simp] theorem State.popEvent_v (s : State) : (s.popEvent).v = s.v := rfl
@[simp] theorem State.popEvent_i (s : State) : (s.popEvent).i = s.i := rfl
@[simp] theorem State.popEvent_pc (s : State) : (s.popEvent).pc = s.pc := rfl
@[simp] theorem State.popEvent_stack (s : State) : (s.popEvent).stack = s.stack := rfl
@[simp] theorem State.popEvent_sp (s : State) : (s.popEvent).sp = s.sp := rfl
@[simp] theorem State.popEvent_dt (s : State) : (s.popEvent).dt = s.dt := rfl
@[simp] theorem State.popEvent_st (s : State) : (s.popEvent).st = s.st := rfl
@[simp] theorem State.popEvent_keys (s : State) : (s.popEvent).keys = s.keys := rfl
@[simp] theorem State.popEvent_mode (s : State) : (s.popEvent).mode = s.mode := rfl
@[simp] theorem State.popEvent_fault (s : State) : (s.popEvent).fault = s.fault := rfl
@[simp] theorem State.popEvent_keyPrev (s : State) : (s.popEvent).keyPrev = s.keyPrev := rfl
@[simp] theorem State.popEvent_mem (s : State) : (s.popEvent).mem = s.mem := rfl
@[simp] theorem State.popEvent_fb (s : State) : (s.popEvent).fb = s.fb := rfl
@[simp] theorem State.popEvent_font (s : State) : (s.popEvent).font = s.font := rfl
@[simp] theorem State.popEvent_draws (s : State) : (s.popEvent).draws = s.draws := rfl
@[simp] theorem State.popEvent_schedule (s : State) : (s.popEvent).schedule = s.schedule.rest := rfl

/-! ### writeFlagged -/

@[simp] theorem State.writeFlagged_v (s : State) (x : RegIdx) (r : Byte × Bool) : (s.writeFlagged x r).v = (s.v.set x.toNat r.1 x.isLt).set 15 (flagByte r.2) := rfl
@[simp] theorem State.writeFlagged_i (s : State) (x : RegIdx) (r : Byte × Bool) : (s.writeFlagged x r).i = s.i := rfl
@[simp] theorem State.writeFlagged_pc (s : State) (x : RegIdx) (r : Byte × Bool) : (s.writeFlagged x r).pc = s.pc + 2 := rfl
@[simp] theorem State.writeFlagged_stack (s : State) (x : RegIdx) (r : Byte × Bool) : (s.writeFlagged x r).stack = s.stack := rfl
@[simp] theorem State.writeFlagged_sp (s : State) (x : RegIdx) (r : Byte × Bool) : (s.writeFlagged x r).sp = s.sp := rfl
@[simp] theorem State.writeFlagged_dt (s : State) (x : RegIdx) (r : Byte × Bool) : (s.writeFlagged x r).dt = s.dt := rfl
@[simp] theorem State.writeFlagged_st (s : State) (x : RegIdx) (r : Byte × Bool) : (s.writeFlagged x r).st = s.st := rfl
@[simp] theorem State.writeFlagged_keys (s : State) (x : RegIdx) (r : Byte × Bool) : (s.writeFlagged x r).keys = s.keys := rfl
@[simp] theorem State.writeFlagged_mode (s : State) (x : RegIdx) (r : Byte × Bool) : (s.writeFlagged x r).mode = s.mode := rfl
@[simp] theorem State.writeFlagged_fault (s : State) (x : RegIdx) (r : Byte × Bool) : (s.writeFlagged x r).fault = s.fault := rfl
@[simp] theorem State.writeFlagged_keyPrev (s : State) (x : RegIdx) (r : Byte × Bool) : (s.writeFlagged x r).keyPrev = s.keyPrev := rfl
@[simp] theorem State.writeFlagged_mem (s : State) (x : RegIdx) (r : Byte × Bool) : (s.writeFlagged x r).mem = s.mem := rfl
@[simp] theorem State.writeFlagged_fb (s : State) (x : RegIdx) (r : Byte × Bool) : (s.writeFlagged x r).fb = s.fb := rfl
@[simp] theorem State.writeFlagged_font (s : State) (x : RegIdx) (r : Byte × Bool) : (s.writeFlagged x r).font = s.font := rfl
@[simp] theorem State.writeFlagged_draws (s : State) (x : RegIdx) (r : Byte × Bool) : (s.writeFlagged x r).draws = s.draws := rfl
@[simp] theorem State.writeFlagged_schedule (s : State) (x : RegIdx) (r : Byte × Bool) : (s.writeFlagged x r).schedule = s.schedule := rfl

/-! ### skipIf: only PC moves -/

@[simp] theorem State.skipIf_v (s : State) (c : Bool) : (s.skipIf c).v = s.v := by cases c <;> rfl
@[simp] theorem State.skipIf_i (s : State) (c : Bool) : (s.skipIf c).i = s.i := by cases c <;> rfl
@[simp] theorem State.skipIf_pc (s : State) (c : Bool) : (s.skipIf c).pc = if c then s.pc + 4 else s.pc + 2 := by
  cases c <;> rfl
@[simp] theorem State.skipIf_stack (s : State) (c : Bool) : (s.skipIf c).stack = s.stack := by cases c <;> rfl
@[simp] theorem State.skipIf_sp (s : State) (c : Bool) : (s.skipIf c).sp = s.sp := by cases c <;> rfl
@[simp] theorem State.skipIf_dt (s : State) (c : Bool) : (s.skipIf c).dt = s.dt := by cases c <;> rfl
@[simp] theorem State.skipIf_st (s : State) (c : Bool) : (s.skipIf c).st = s.st := by cases c <;> rfl
@[simp] theorem State.skipIf_keys (s : State) (c : Bool) : (s.skipIf c).keys = s.keys := by cases c <;> rfl
@[simp] theorem State.skipIf_mode (s : State) (c : Bool) : (s.skipIf c).mode = s.mode := by cases c <;> rfl
@[simp] theorem State.skipIf_fault (s : State) (c : Bool) : (s.skipIf c).fault = s.fault := by cases c <;> rfl
@[simp] theorem State.skipIf_keyPrev (s : State) (c : Bool) : (s.skipIf c).keyPrev = s.keyPrev := by cases c <;> rfl
@[simp] theorem State.skipIf_mem (s : State) (c : Bool) : (s.skipIf c).mem = s.mem := by cases c <;> rfl
@[simp] theorem State.skipIf_fb (s : State) (c : Bool) : (s.skipIf c).fb = s.fb := by cases c <;> rfl
@[simp] theorem State.skipIf_font (s : State) (c : Bool) : (s.skipIf c).font = s.font := by cases c <;> rfl
@[simp] theorem State.skipIf_draws (s : State) (c : Bool) : (s.skipIf c).draws = s.draws := by cases c <;> rfl
@[simp] theorem State.skipIf_schedule (s : State) (c : Bool) : (s.skipIf c).schedule = s.schedule := by cases c <;> rfl

/-! ### Readers -/

/-- A register is read from `v` alone. -/
theorem State.getV_congr {s t : State} (h : t.v = s.v) (x : RegIdx) : t.getV x = s.getV x := by
  simp [State.getV, h]

/-- A byte is read from `font` and `mem` alone. -/
theorem State.byteAt_congr {s t : State} (hf : t.font = s.font) (hm : t.mem = s.mem) (a : Nat) :
    t.byteAt a = s.byteAt a := by
  simp [State.byteAt, hf, hm]

/-- A pixel is read from `fb` alone. -/
theorem State.pixel_congr {s t : State} (h : t.fb = s.fb) (row : Fin 32) (col : Fin 64) :
    t.pixel row col = s.pixel row col := by
  simp [State.pixel, h]

/-- A register read after a register write. -/
@[simp] theorem State.getV_setV (s : State) (x r : RegIdx) (b : Byte) :
    (s.setV x b).getV r = if r = x then b else s.getV r := by
  simp only [State.getV, State.setV_v, Vector.getElem_set, BitVec.toNat_inj, eq_comm (a := r)]

@[simp] theorem State.getV_setPc (s : State) (a : Word) (r : RegIdx) : (s.setPc a).getV r = s.getV r := rfl
@[simp] theorem State.getV_advance (s : State) (r : RegIdx) : (s.advance).getV r = s.getV r := rfl
@[simp] theorem State.getV_setI (s : State) (a : Word) (r : RegIdx) : (s.setI a).getV r = s.getV r := rfl
@[simp] theorem State.getV_store (s : State) (a : Nat) (vs : List Byte) (r : RegIdx) : (s.store a vs).getV r = s.getV r := rfl
@[simp] theorem State.getV_raise (s : State) (k : FaultKind) (w a : Word) (r : RegIdx) : (s.raise k w a).getV r = s.getV r := rfl
@[simp] theorem State.getV_tick (s : State) (r : RegIdx) : (s.tick).getV r = s.getV r := rfl
@[simp] theorem State.getV_setKeys (s : State) (k : BitVec 16) (r : RegIdx) : (s.setKeys k).getV r = s.getV r := rfl
@[simp] theorem State.getV_popEvent (s : State) (r : RegIdx) : (s.popEvent).getV r = s.getV r := rfl

@[simp] theorem State.byteAt_setV (s : State) (x : RegIdx) (b : Byte) (j : Nat) : (s.setV x b).byteAt j = s.byteAt j := rfl
@[simp] theorem State.byteAt_setPc (s : State) (a : Word) (j : Nat) : (s.setPc a).byteAt j = s.byteAt j := rfl
@[simp] theorem State.byteAt_advance (s : State) (j : Nat) : (s.advance).byteAt j = s.byteAt j := rfl
@[simp] theorem State.byteAt_setI (s : State) (a : Word) (j : Nat) : (s.setI a).byteAt j = s.byteAt j := rfl
@[simp] theorem State.byteAt_loadRegs (s : State) (x : RegIdx) (a : Nat) (j : Nat) : (s.loadRegs x a).byteAt j = s.byteAt j := rfl
@[simp] theorem State.byteAt_raise (s : State) (k : FaultKind) (w a : Word) (j : Nat) : (s.raise k w a).byteAt j = s.byteAt j := rfl
@[simp] theorem State.byteAt_tick (s : State) (j : Nat) : (s.tick).byteAt j = s.byteAt j := rfl
@[simp] theorem State.byteAt_setKeys (s : State) (k : BitVec 16) (j : Nat) : (s.setKeys k).byteAt j = s.byteAt j := rfl
@[simp] theorem State.byteAt_popEvent (s : State) (j : Nat) : (s.popEvent).byteAt j = s.byteAt j := rfl
@[simp] theorem State.byteAt_writeFlagged (s : State) (x : RegIdx) (r : Byte × Bool) (j : Nat) : (s.writeFlagged x r).byteAt j = s.byteAt j := rfl

@[simp] theorem State.getV_skipIf (s : State) (c : Bool) (r : RegIdx) : (s.skipIf c).getV r = s.getV r := by cases c <;> rfl
@[simp] theorem State.byteAt_skipIf (s : State) (c : Bool) (j : Nat) : (s.skipIf c).byteAt j = s.byteAt j := by cases c <;> rfl
@[simp] theorem State.pixel_skipIf (s : State) (c : Bool) (row : Fin 32) (col : Fin 64) : (s.skipIf c).pixel row col = s.pixel row col := by cases c <;> rfl
@[simp] theorem State.pixel_setV (s : State) (x : RegIdx) (b : Byte) (row : Fin 32) (col : Fin 64) : (s.setV x b).pixel row col = s.pixel row col := rfl
@[simp] theorem State.pixel_setPc (s : State) (a : Word) (row : Fin 32) (col : Fin 64) : (s.setPc a).pixel row col = s.pixel row col := rfl
@[simp] theorem State.pixel_advance (s : State) (row : Fin 32) (col : Fin 64) : (s.advance).pixel row col = s.pixel row col := rfl
@[simp] theorem State.pixel_setI (s : State) (a : Word) (row : Fin 32) (col : Fin 64) : (s.setI a).pixel row col = s.pixel row col := rfl
@[simp] theorem State.pixel_store (s : State) (a : Nat) (vs : List Byte) (row : Fin 32) (col : Fin 64) : (s.store a vs).pixel row col = s.pixel row col := rfl
@[simp] theorem State.pixel_loadRegs (s : State) (x : RegIdx) (a : Nat) (row : Fin 32) (col : Fin 64) : (s.loadRegs x a).pixel row col = s.pixel row col := rfl
@[simp] theorem State.pixel_raise (s : State) (k : FaultKind) (w a : Word) (row : Fin 32) (col : Fin 64) : (s.raise k w a).pixel row col = s.pixel row col := rfl
@[simp] theorem State.pixel_tick (s : State) (row : Fin 32) (col : Fin 64) : (s.tick).pixel row col = s.pixel row col := rfl
@[simp] theorem State.pixel_setKeys (s : State) (k : BitVec 16) (row : Fin 32) (col : Fin 64) : (s.setKeys k).pixel row col = s.pixel row col := rfl
@[simp] theorem State.pixel_popEvent (s : State) (row : Fin 32) (col : Fin 64) : (s.popEvent).pixel row col = s.pixel row col := rfl
@[simp] theorem State.pixel_writeFlagged (s : State) (x : RegIdx) (r : Byte × Bool) (row : Fin 32) (col : Fin 64) : (s.writeFlagged x r).pixel row col = s.pixel row col := rfl

/-- The registers after a flag-writing instruction: VF is the flag, Vx the result unless it is VF (41_alu.md R110). -/
@[simp] theorem State.getV_writeFlagged (s : State) (x r : RegIdx) (p : Byte × Bool) :
    (s.writeFlagged x p).getV r = if r = 15 then flagByte p.2 else if r = x then p.1 else s.getV r := by
  simp [State.writeFlagged]

/-- The registers after a block load: those up to Vx come from memory (44_index_memory.md R156). -/
@[simp] theorem State.getV_loadRegs (s : State) (x r : RegIdx) (a : Nat) :
    (s.loadRegs x a).getV r = if r.toNat ≤ x.toNat then s.byteAt (a + r.toNat) else s.getV r := by
  simp [State.getV, State.loadRegs]

end Sys2Proof.Machine
end

