-- ==== Sys2Proof/Laws/Display.lean ====
section
/-! SUPPORT. The sprite blitter: what `blit` does to each pixel, and which pixels a sprite names
(spec/43_display.md R141, corner case d). -/

namespace Sys2Proof.Machine

/-- One xor touches one pixel. -/
@[simp] theorem Bitmap.get_flip (fb : Bitmap) (r r' : Fin 32) (c c' : Fin 64) :
    Bitmap.get (Bitmap.flip fb r c) r' c' = (Bitmap.get fb r' c' ^^ decide (r' = r ∧ c' = c)) := by
  simp only [Bitmap.get, Bitmap.flip, Vector.getElem_set]
  by_cases hr : r' = r
  · subst hr
    by_cases hc : c' = c
    · subst hc; simp
    · have : c'.val ≠ c.val := fun h => hc (Fin.ext h)
      simp [hc, this]
  · have : r.val ≠ r'.val := fun h => hr (Fin.ext h.symm)
    simp [hr, this]

@[simp] theorem Bitmap.get_clear (r : Fin 32) (c : Fin 64) : Bitmap.get Bitmap.clear r c = false := by
  simp [Bitmap.get, Bitmap.clear]

/-- What `blit` does over pixels none of which comes twice: each is inverted, and `hit` says whether one was set. -/
theorem blit_spec (ps : List (Fin 32 × Fin 64)) (hn : ps.Nodup) (fb : Bitmap) (hit : Bool) :
    (∀ r c, Bitmap.get (blit ps fb hit).1 r c = (Bitmap.get fb r c ^^ decide ((r, c) ∈ ps))) ∧
      (blit ps fb hit).2 = (hit || ps.any fun p => Bitmap.get fb p.1 p.2) := by
  induction ps generalizing fb hit with
  | nil => simp [blit]
  | cons p ps ih =>
    obtain ⟨r0, c0⟩ := p
    obtain ⟨hnot, hn⟩ := List.nodup_cons.mp hn
    obtain ⟨ih1, ih2⟩ := ih hn (Bitmap.flip fb r0 c0) (hit || Bitmap.get fb r0 c0)
    refine ⟨fun r c => ?_, ?_⟩
    · rw [blit, ih1, Bitmap.get_flip]
      by_cases h : r = r0 ∧ c = c0
      · obtain ⟨rfl, rfl⟩ := h; simp [hnot]
      · simp [h]
    · rw [blit, ih2, List.any_cons, Bool.or_assoc]
      congr 2
      apply Bool.eq_iff_iff.mpr
      simp only [List.any_eq_true, Bitmap.get_flip]
      refine exists_congr fun q => and_congr_right fun hq => ?_
      have : ¬ (q.1 = r0 ∧ q.2 = c0) := fun h => hnot (by rw [← h.1, ← h.2]; exact hq)
      simp [this]

/-- The pixels of one sprite byte. -/
theorem mem_spriteRow {b : Byte} {x0 y : Nat} {p : Fin 32 × Fin 64} :
    p ∈ spriteRow b x0 y ↔ ∃ c < 8, b.getLsbD (7 - c) = true ∧ p = (wrapRow y, wrapCol (x0 + c)) := by
  simp only [spriteRow, List.mem_map, List.mem_filter, List.mem_range, and_assoc]
  exact exists_congr fun c => and_congr_right fun _ => and_congr_right fun _ => eq_comm

/-- The pixels of a sprite: byte r names pixels of row y + r, wrapped. -/
theorem mem_spritePixels {bs : List Byte} {x0 y : Nat} {p : Fin 32 × Fin 64} :
    p ∈ spritePixels bs x0 y ↔
      ∃ r < bs.length, ∃ c < 8, (bs.getD r 0).getLsbD (7 - c) = true ∧ p = (wrapRow (y + r), wrapCol (x0 + c)) := by
  induction bs generalizing y with
  | nil => simp [spritePixels]
  | cons b bs ih =>
    rw [spritePixels, List.mem_append, mem_spriteRow, ih]
    constructor
    · rintro (h | ⟨r, hr, h⟩)
      · exact ⟨0, by simp, by simpa using h⟩
      · exact ⟨r + 1, by simpa using hr, by simpa [Nat.add_assoc, Nat.add_comm 1] using h⟩
    · rintro ⟨r, hr, h⟩
      cases r with
      | zero => exact .inl (by simpa using h)
      | succ r => exact .inr ⟨r, by simpa using hr, by simpa [Nat.add_assoc, Nat.add_comm 1] using h⟩

theorem wrapCol_inj {x0 c d : Nat} (hc : c < 8) (hd : d < 8) (h : wrapCol (x0 + c) = wrapCol (x0 + d)) : c = d := by
  simp only [wrapCol, Fin.mk.injEq] at h; omega

theorem nodup_spriteRow (b : Byte) (x0 y : Nat) : (spriteRow b x0 y).Nodup := by
  refine List.Nodup.map_on ?_ (List.nodup_range.filter _)
  intro c hc d hd h
  simp only [List.mem_filter, List.mem_range] at hc hd
  exact wrapCol_inj hc.1 hd.1 (Prod.ext_iff.mp h).2

/-- No pixel is visited twice by a sprite of at most 32 rows (R141, corner case d). -/
theorem nodup_spritePixels (bs : List Byte) (hb : bs.length ≤ 32) (x0 y : Nat) : (spritePixels bs x0 y).Nodup := by
  induction bs generalizing y with
  | nil => simp [spritePixels]
  | cons b bs ih =>
    rw [List.length_cons] at hb
    rw [spritePixels, List.nodup_append]
    refine ⟨nodup_spriteRow b x0 y, ih (by omega) (y + 1), ?_⟩
    rintro p hp q hq rfl
    obtain ⟨c, _, _, h⟩ := mem_spriteRow.mp hp
    obtain ⟨r, hr, d, _, _, h'⟩ := mem_spritePixels.mp hq
    have := (Prod.ext_iff.mp (h.symm.trans h')).1
    simp only [wrapRow, Fin.mk.injEq] at this
    omega

theorem State.length_bytesAt (s : State) (a n : Nat) : (s.bytesAt a n).length = n := by
  induction n generalizing a with
  | zero => rfl
  | succ n ih => simp [State.bytesAt, ih]

theorem State.getD_bytesAt (s : State) (a n r : Nat) (hr : r < n) : (s.bytesAt a n).getD r 0 = s.byteAt (a + r) := by
  induction n generalizing a r with
  | zero => omega
  | succ n ih =>
    cases r with
    | zero => simp [State.bytesAt]
    | succ r =>
      have := ih (a + 1) r (by omega)
      simpa [State.bytesAt, Nat.add_assoc, Nat.add_comm 1] using this

end Sys2Proof.Machine
end

