-- ==== Sys2Proof/Laws/Memory.lean ====
section
/-! SUPPORT. The memory: a read after a write, and that every operation keeps the canonical form (log 10). -/

namespace Sys2Proof.Machine

theorem Memory.lookup_insert (m : Memory) (k a : Nat) (v : Byte) :
    Memory.lookup (Memory.insert m k v) a = if a = k then some v else Memory.lookup m a := by
  induction m with
  | nil => simp [Memory.insert, Memory.lookup, eq_comm]
  | cons c m ih =>
    obtain ⟨b, w⟩ := c
    simp only [Memory.insert]
    split
    · simp [Memory.lookup, eq_comm]
    · split
      · next h =>
        subst h
        by_cases e : k = a
        · simp [Memory.lookup, e]
        · simp [Memory.lookup, e, Ne.symm e]
      · next h =>
        simp only [Memory.lookup, ih]
        split <;> simp_all [eq_comm]

theorem Memory.lookup_erase (m : Memory) (k a : Nat) :
    Memory.lookup (Memory.erase m k) a = if a = k then none else Memory.lookup m a := by
  induction m with
  | nil => simp [Memory.erase, Memory.lookup]
  | cons c m ih =>
    obtain ⟨b, w⟩ := c
    simp only [Memory.erase, List.filter_cons] at ih ⊢
    by_cases h : b = k
    · subst h; simp only [bne_self_eq_false, Bool.false_eq_true, if_false, ih, Memory.lookup]
      split <;> simp_all [eq_comm]
    · simp only [bne_iff_ne, ne_eq, h, not_false_eq_true, if_true, Memory.lookup, ih]
      split <;> simp_all

/-- A read after a write: the value written at its address, every other address as before. -/
@[simp] theorem Memory.read_write (f : Font) (m : Memory) (k a : Nat) (v : Byte) :
    Memory.read f (Memory.write f m k v) a = if a = k then v else Memory.read f m a := by
  simp only [Memory.read, Memory.write]
  split
  · next h => rw [Memory.lookup_erase]; split <;> simp_all
  · rw [Memory.lookup_insert]; split <;> simp_all

/-- A read after a block write. -/
theorem Memory.read_writeAll (f : Font) (vs : List Byte) (m : Memory) (b a : Nat) :
    Memory.read f (Memory.writeAll f m b vs) a =
      if b ≤ a ∧ a < b + vs.length then vs.getD (a - b) 0 else Memory.read f m a := by
  induction vs generalizing m b with
  | nil => simp only [Memory.writeAll, List.length_nil]; rw [if_neg (by omega)]
  | cons v vs ih =>
    simp only [Memory.writeAll, ih, Memory.read_write, List.length_cons]
    by_cases hab : a = b
    · subst hab
      rw [if_neg (by omega), if_pos rfl, if_pos (by omega)]; simp
    · by_cases h : b + 1 ≤ a ∧ a < b + 1 + vs.length
      · rw [if_pos h, if_pos (by omega)]
        obtain ⟨j, rfl⟩ : ∃ j, a = b + 1 + j := ⟨a - (b + 1), by omega⟩
        have h1 : b + 1 + j - b = j + 1 := by omega
        simp [h1]
      · rw [if_neg h, if_neg hab, if_neg (by omega)]

/-- The byte of the machine's memory after a store: the stored bytes at their addresses, every other byte as before. -/
theorem State.byteAt_store (s : State) (b : Nat) (vs : List Byte) (a : Nat) :
    (s.store b vs).byteAt a = if b ≤ a ∧ a < b + vs.length then vs.getD (a - b) 0 else s.byteAt a :=
  Memory.read_writeAll s.font vs s.mem b a

/-! ### The canonical form -/

/-- The canonical form, as propositions. -/
theorem Memory.wf_iff (f : Font) (m : Memory) :
    Memory.wf f m = true ↔
      m.Pairwise (fun c d => c.1 < d.1) ∧ ∀ c ∈ m, c.1 ≤ Config.lastAddr ∧ c.2 ≠ f.resetByte c.1 := by
  simp [Memory.wf]

@[simp] theorem Memory.wf_nil (f : Font) : Memory.wf f [] = true := rfl

theorem Memory.mem_insert {m : Memory} {k : Nat} {v : Byte} {c : Host.Cell}
    (h : c ∈ Memory.insert m k v) : c = (k, v) ∨ c ∈ m := by
  induction m with
  | nil => simpa [Memory.insert] using h
  | cons d m ih =>
    obtain ⟨b, w⟩ := d
    simp only [Memory.insert] at h
    split at h
    · simpa using h
    · split at h
      · rcases List.mem_cons.mp h with h | h
        · exact .inl h
        · exact .inr (List.mem_cons_of_mem _ h)
      · rcases List.mem_cons.mp h with h | h
        · exact .inr (h ▸ List.mem_cons_self)
        · exact (ih h).imp id (List.mem_cons_of_mem _)

theorem Memory.pairwise_insert {m : Memory} (k : Nat) (v : Byte)
    (h : m.Pairwise fun c d => c.1 < d.1) : (Memory.insert m k v).Pairwise fun c d => c.1 < d.1 := by
  induction m with
  | nil => simp [Memory.insert]
  | cons d m ih =>
    obtain ⟨b, w⟩ := d
    obtain ⟨hd, hm⟩ := List.pairwise_cons.mp h
    simp only [Memory.insert]
    split
    · next hk =>
      refine List.pairwise_cons.mpr ⟨fun c hc => ?_, h⟩
      rcases List.mem_cons.mp hc with rfl | hc
      · exact hk
      · exact Nat.lt_trans hk (hd c hc)
    · split
      · next hk => subst hk; exact List.pairwise_cons.mpr ⟨hd, hm⟩
      · next hk hne =>
        refine List.pairwise_cons.mpr ⟨fun c hc => ?_, ih hm⟩
        rcases Memory.mem_insert hc with rfl | hc
        · simp only at hk hne ⊢; omega
        · exact hd c hc

/-- A write keeps the canonical form. -/
theorem Memory.wf_write {f : Font} {m : Memory} (hm : Memory.wf f m = true) {a : Nat} (ha : a ≤ Config.lastAddr)
    (v : Byte) : Memory.wf f (Memory.write f m a v) = true := by
  obtain ⟨hp, hc⟩ := (Memory.wf_iff f m).mp hm
  rw [Memory.wf_iff, Memory.write]
  split
  · exact ⟨hp.filter _, fun c h => hc c (List.mem_filter.mp h).1⟩
  · next hv =>
    refine ⟨Memory.pairwise_insert a v hp, fun c h => ?_⟩
    rcases Memory.mem_insert h with rfl | h
    · exact ⟨ha, hv⟩
    · exact hc c h

/-- A block write inside the address space keeps the canonical form. -/
theorem Memory.wf_writeAll {f : Font} (vs : List Byte) {m : Memory} (hm : Memory.wf f m = true) {a : Nat}
    (ha : a + vs.length ≤ Config.lastAddr + 1) : Memory.wf f (Memory.writeAll f m a vs) = true := by
  induction vs generalizing m a with
  | nil => exact hm
  | cons v vs ih =>
    rw [List.length_cons] at ha
    exact ih (Memory.wf_write hm (by omega) v) (by omega)

end Sys2Proof.Machine
end

