-- ==== Sys2Proof/Laws/Operands.lean ====
section
/-! SUPPORT. The values of the operand forms and of the flag computations, as numbers. -/

namespace Sys2Proof.Machine

@[simp] theorem inBounds_iff (b m : Nat) : inBounds b m = true ↔ b + m ≤ 0xFFF :=
  decide_eq_true_iff

@[simp] theorem State.reaches_iff (s : State) (m : Nat) : s.reaches m = true ↔ s.i.toNat + m ≤ 0xFFF := by
  simp [State.reaches]

/-- Bit 0 is the parity. -/
theorem getLsbD_zero_iff {w : Nat} (a : BitVec w) : a.getLsbD 0 = true ↔ a.toNat % 2 = 1 := by
  simp [BitVec.getLsbD, Nat.testBit, Nat.and_comm, Nat.and_one_is_mod]

theorem fetchable_iff (pc : Word) : fetchable pc = true ↔ pc.toNat + 1 ≤ 0xFFF ∧ pc.toNat % 2 = 0 := by
  have h := getLsbD_zero_iff pc
  rw [fetchable, Bool.and_eq_true, inBounds_iff]
  cases hb : pc.getLsbD 0 <;> simp only [hb, true_iff, false_iff, Bool.false_eq_true] at h <;> simp <;> omega

@[simp] theorem toNat_wordOfAddr (a : Addr12) : (wordOfAddr a).toNat = a.toNat := by
  simp [wordOfAddr]; omega

@[simp] theorem State.toNat_wordOfV (s : State) (x : RegIdx) : (s.wordOfV x).toNat = (s.getV x).toNat := by
  simp [State.wordOfV]; omega

@[simp] theorem State.toNat_lowNibble (s : State) (x : RegIdx) : (s.lowNibble x).toNat = (s.getV x).toNat % 16 := by
  simp [State.lowNibble, BitVec.extractLsb'_toNat]

theorem State.toNat_glyphAddr (s : State) (g : Nibble) : (s.glyphAddr g).toNat = s.font.base.val + 5 * g.toNat := by
  have := s.font.base.isLt; have := g.isLt
  simp [State.glyphAddr]; omega

theorem State.keyDown_eq (s : State) (k : Nibble) : s.keyDown k = s.keys.getLsbD k.toNat := rfl

@[simp] theorem length_bcdDigits (v : Byte) : (bcdDigits v).length = 3 := rfl

@[simp] theorem State.length_lowRegs (s : State) (x : RegIdx) : (s.lowRegs x).length = x.toNat + 1 := by
  have := x.isLt
  simp [State.lowRegs]; omega

theorem State.getD_lowRegs (s : State) (x r : RegIdx) (h : r.toNat ≤ x.toNat) :
    (s.lowRegs x).getD r.toNat 0 = s.getV r := by
  have h1 : r.toNat < x.toNat + 1 := by omega
  have h2 := r.isLt
  simp [State.lowRegs, State.getV, List.getD_eq_getElem?_getD, h1, h2]

/-- The two bytes of a word, put together, are the word. -/
@[simp] theorem word_of_wordBytes (w : Word) : ((w.extractLsb' 8 8 : Byte) ++ (w.extractLsb' 0 8 : Byte) : Word) = w := by
  apply BitVec.eq_of_toNat_eq
  have := w.isLt
  rw [show ((w.extractLsb' 8 8 : Byte) ++ (w.extractLsb' 0 8 : Byte) : Word).toNat
    = (w.extractLsb' 8 8 ++ w.extractLsb' 0 8 : BitVec (8 + 8)).toNat from rfl, BitVec.toNat_append,
    ← Nat.shiftLeft_add_eq_or_of_lt (BitVec.isLt _)]
  simp only [BitVec.extractLsb'_toNat, Nat.shiftLeft_eq, Nat.shiftRight_eq_div_pow]
  omega

theorem addFlag_fst (a b : Byte) : (addFlag a b).1.toNat = (a.toNat + b.toNat) % 256 := by simp [addFlag]

theorem subFlag_fst (a b : Byte) : (subFlag a b).1 = BitVec.ofNat 8 ((a.toNat + 256 - b.toNat) % 256) := by
  have := a.isLt; have := b.isLt
  apply BitVec.eq_of_toNat_eq
  simp only [subFlag, BitVec.toNat_ofInt, BitVec.toNat_ofNat]
  omega

theorem shlFlag_snd (a : Byte) : (shlFlag a).2 = true ↔ 128 ≤ a.toNat := by
  have := BitVec.msb_eq_decide a
  simp [BitVec.msb, BitVec.getMsbD] at this
  simp [shlFlag, this]

theorem shrFlag_snd (a : Byte) : (shrFlag a).2 = true ↔ a.toNat % 2 = 1 := getLsbD_zero_iff a

end Sys2Proof.Machine
end

