-- ==== Sys2Proof/Laws/Events.lean ====
section
/-! SUPPORT. What each event does, said once: the three kinds of `Step`, the fetch checks, the key poll, the two timers,
the load of an image, and the placing of a word. -/

namespace Sys2Proof.Machine

/-! ### Which event -/

theorem step_eq_stepEvent {s : State} (h : s.nextEvent = .step) : step s = stepEvent s.popEvent := by
  rw [step, h, runEvent]

theorem step_eq_stepRunning {s : State} (h : s.nextEvent = .step) (hm : s.mode = .running) :
    step s = stepRunning s.popEvent := by
  rw [step_eq_stepEvent h, stepEvent, State.popEvent_mode, hm]

theorem step_eq_stepAwaitingKey {s : State} {x : RegIdx} (h : s.nextEvent = .step) (hm : s.mode = .awaitingKey x) :
    step s = stepAwaitingKey x s.popEvent := by
  rw [step_eq_stepEvent h, stepEvent, State.popEvent_mode, hm]

theorem step_eq_popEvent {s : State} (h : s.nextEvent = .step) (hm : s.mode = .halted) : step s = .next s.popEvent := by
  rw [step_eq_stepEvent h, stepEvent, State.popEvent_mode, hm]

theorem step_eq_tick {s : State} (h : s.nextEvent = .tick) : step s = .next s.popEvent.tick := by
  rw [step, h, runEvent]

theorem step_eq_setKeys {s : State} {k : BitVec 16} (h : s.nextEvent = .setKeys k) :
    step s = .next (s.popEvent.setKeys k) := by
  rw [step, h, runEvent]

theorem step_eq_resetEvent {s : State} {image : List Byte} (h : s.nextEvent = .reset image) :
    step s = resetEvent image s.popEvent := by
  rw [step, h, runEvent]

/-- The next event is the first of the schedule. -/
theorem State.nextEvent_eq (s : State) : s.nextEvent = s.schedule.event 0 := rfl

@[simp] theorem Schedule.next_cons (e : Event) (es : List Event) (b : Beyond) :
    (Schedule.mk (e :: es) b).next = e := rfl

@[simp] theorem Schedule.rest_cons (e : Event) (es : List Event) (b : Beyond) :
    (Schedule.mk (e :: es) b).rest = ⟨es, b⟩ := rfl

@[simp] theorem Schedule.next_nil (b : Beyond) : (Schedule.mk [] b).next = b.next := rfl

@[simp] theorem Schedule.rest_nil (b : Beyond) : (Schedule.mk [] b).rest = b.rest := rfl

@[simp] theorem Schedule.drop_succ (n : Nat) (c : Schedule) : c.drop (n + 1) = c.rest.drop n := rfl

@[simp] theorem Schedule.event_succ (n : Nat) (c : Schedule) : c.event (n + 1) = c.rest.event n := rfl

/-- Events taken off in two goes. -/
theorem Schedule.drop_add (m n : Nat) (c : Schedule) : c.drop (m + n) = (c.drop m).drop n := by
  induction m generalizing c with
  | zero => rw [Nat.zero_add]; rfl
  | succ m ih => rw [Nat.succ_add, Schedule.drop_succ, Schedule.drop_succ, ih]

/-- Once a list is used up, what follows it is left. -/
theorem Schedule.drop_listed (es : List Event) (b : Beyond) : Schedule.drop es.length ⟨es, b⟩ = ⟨[], b⟩ := by
  induction es with
  | nil => rfl
  | cons e es ih => rw [List.length_cons, Schedule.drop_succ, Schedule.rest_cons, ih]

/-- One step of a run. -/
theorem run_succ (M : Host.Core) {s t : M.State} (n : Nat) (h : M.step s = .next t) : M.run (n + 1) s = M.run n t := by
  rw [Host.Core.run, h]

theorem core_run_succ {s t : State} (n : Nat) (h : step s = .next t) :
    Sys2Proof.core.run (n + 1) s = Sys2Proof.core.run n t :=
  run_succ Sys2Proof.core n h

/-! ### A step in Running mode -/

/-- The four things a step in `Running` mode can do, with the check that leads to each (40_step.md R91 to R93). -/
theorem stepRunning_cases (s : State) :
    (0xFFF < s.pc.toNat + 1 ∧ stepRunning s = .next (s.raise .outOfBounds 0 s.pc)) ∨
    (s.pc.toNat + 1 ≤ 0xFFF ∧ s.pc.toNat % 2 = 1 ∧ stepRunning s = .next (s.raise .misalignedPC 0 s.pc)) ∨
    (s.pc.toNat + 1 ≤ 0xFFF ∧ s.pc.toNat % 2 = 0 ∧ (∃ e, decode (s.wordAt s.pc.toNat) = .error e) ∧
      stepRunning s = .next (s.raise .unknownOpcode (s.wordAt s.pc.toNat) 0)) ∨
    (s.pc.toNat + 1 ≤ 0xFFF ∧ s.pc.toNat % 2 = 0 ∧
      ∃ i, decode (s.wordAt s.pc.toNat) = .ok i ∧ stepRunning s = exec i s) := by
  by_cases h1 : s.pc.toNat + 1 ≤ 0xFFF
  · have hb := (inBounds_iff s.pc.toNat 1).mpr h1
    by_cases h2 : s.pc.toNat % 2 = 1
    · refine .inr (.inl ⟨h1, h2, ?_⟩)
      rw [stepRunning, if_pos hb, if_pos ((getLsbD_zero_iff _).mpr h2)]
    · have hp : ¬ s.pc.getLsbD 0 = true := by rwa [getLsbD_zero_iff]
      refine .inr (.inr ?_)
      cases hd : decode (s.wordAt s.pc.toNat) with
      | error e => exact .inl ⟨h1, by omega, ⟨e, rfl⟩, by rw [stepRunning, if_pos hb, if_neg hp, hd]⟩
      | ok i => exact .inr ⟨h1, by omega, i, rfl, by rw [stepRunning, if_pos hb, if_neg hp, hd]⟩
  · refine .inl ⟨by omega, ?_⟩
    rw [stepRunning, if_neg (by rwa [inBounds_iff])]

/-- A fetchable word that decodes is executed. -/
theorem stepRunning_of_decode {s : State} {i : Instr} (h1 : s.pc.toNat + 1 ≤ 0xFFF) (h2 : s.pc.toNat % 2 = 0)
    (hd : decode (s.wordAt s.pc.toNat) = .ok i) : stepRunning s = exec i s := by
  have hp : ¬ s.pc.getLsbD 0 = true := by rw [getLsbD_zero_iff]; omega
  rw [stepRunning, if_pos ((inBounds_iff _ _).mpr h1), if_neg hp, hd]

/-! ### The key poll -/

/-- `leastKey` finds the least key of the set. -/
theorem leastKey_eq_some {ks : BitVec 16} {k : Nat} :
    leastKey ks = some k ↔ k < 16 ∧ ks.getLsbD k = true ∧ ∀ j < k, ks.getLsbD j = false := by
  rw [leastKey, List.find?_range_eq_some]
  simp only [List.mem_range, Bool.not_eq_eq_eq_not, Bool.not_true]
  tauto

theorem leastKey_eq_none {ks : BitVec 16} : leastKey ks = none ↔ ∀ k < 16, ks.getLsbD k = false := by
  simp [leastKey]

theorem State.getLsbD_newlyDown (s : State) (k : Nat) (hk : k < 16) :
    s.newlyDown.getLsbD k = (s.keys.getLsbD k && !s.keyPrev.getLsbD k) := by
  simp [State.newlyDown, hk]

/-- With no key newly down, nothing is. -/
@[simp] theorem leastKey_zero : leastKey 0 = none := by decide

/-! ### Timers -/

theorem toNat_countDown (t : Byte) : (countDown t).toNat = t.toNat - 1 := by
  rw [countDown]
  split
  · next h => rw [h]; rfl
  · next h =>
    have h0 : t.toNat ≠ 0 := fun e => h (BitVec.eq_of_toNat_eq e)
    have := t.isLt
    rw [BitVec.toNat_sub]
    show (2 ^ 8 - 1 + t.toNat) % 2 ^ 8 = t.toNat - 1
    omega

/-! ### Reset -/

theorem resetEvent_ok {s : State} {image : List Byte} (h : image.length ≤ 3584) :
    resetEvent image s = .next (s.boot image) := if_pos (decide_eq_true h)

theorem resetEvent_refused {s : State} {image : List Byte} (h : 3584 < image.length) :
    resetEvent image s = .refused (.imageTooLarge image.length) :=
  if_neg (fun e => absurd (of_decide_eq_true e) (Nat.not_le.mpr h))

/-- Memory after `Reset(image)`: the image, and elsewhere the reset byte (20_memory.md R57). -/
theorem State.byteAt_boot (s : State) (image : List Byte) (a : Nat) :
    (s.boot image).byteAt a =
      if 0x200 ≤ a ∧ a < 0x200 + image.length then image.getD (a - 0x200) 0 else s.font.resetByte a :=
  State.byteAt_store _ 0x200 image a

theorem State.memOk_boot (s : State) {image : List Byte} (h : image.length ≤ 3584) : (s.boot image).memOk :=
  Memory.wf_writeAll image (Memory.wf_nil s.font) (by show 0x200 + _ ≤ 0xFFF + 1; omega)

/-! ### Placing a word -/

theorem State.fetchAddr_ok (s : State) : s.fetchAddr.toNat + 1 ≤ 0xFFF ∧ s.fetchAddr.toNat % 2 = 0 := by
  rw [State.fetchAddr]
  split
  · next h => exact (fetchable_iff _).mp h
  · exact ⟨by decide, by decide⟩

/-- The placed word is the word at PC. -/
theorem State.wordAt_placeWord (s : State) (w : Word) : (s.placeWord w).wordAt s.fetchAddr.toNat = w := by
  have h0 : s.fetchAddr.toNat ≤ s.fetchAddr.toNat ∧ s.fetchAddr.toNat < s.fetchAddr.toNat + (wordBytes w).length := by
    simp [wordBytes]
  have h1 : s.fetchAddr.toNat ≤ s.fetchAddr.toNat + 1 ∧
      s.fetchAddr.toNat + 1 < s.fetchAddr.toNat + (wordBytes w).length := by
    simp [wordBytes]
  rw [State.placeWord, State.wordAt, State.byteAt_store, State.byteAt_store, if_pos h0, if_pos h1, Nat.sub_self,
    Nat.add_sub_cancel_left]
  exact word_of_wordBytes w

end Sys2Proof.Machine
end

