-- ==== Sys2Proof/Laws/Frames.lean ====
section
/-! SUPPORT. What each shared operation does, said once in the terms of Safety.lean: the entry of a fault, the write of a
register, of a flagged result, of PC by a skip, of a sprite; and what is kept when a field is. -/

namespace Sys2Proof.Machine

theorem RegsKept.of_eq {s t : State} (h : t.v = s.v) : RegsKept s t [] := fun r _ => State.getV_congr h r

theorem BytesKept.of_eq {s t : State} (hf : t.font = s.font) (hm : t.mem = s.mem) : BytesKept s t :=
  fun a => State.byteAt_congr hf hm a

theorem PixelsKept.of_eq {s t : State} (h : t.fb = s.fb) : PixelsKept s t := fun r c => State.pixel_congr h r c

/-- `raise` enters the fault and writes nothing else. -/
theorem faultEntered_raise (s : State) (k : FaultKind) (w a : Word) : FaultEntered s (s.raise k w a) k w a :=
  ⟨rfl, .of_eq rfl, .of_eq rfl rfl, .of_eq rfl, rfl⟩

/-- A sequential write of one register keeps the others. -/
theorem regsKept_setV (s : State) (x : RegIdx) (b : Byte) : RegsKept s (s.setV x b).advance [x] := by
  intro r hr
  have h : r ≠ x := by simpa using hr
  rw [State.getV_advance, State.getV_setV, if_neg h]

theorem onlyRegs_setV (s : State) (x : RegIdx) (b : Byte) : OnlyRegs s (s.setV x b).advance :=
  ⟨rfl, .of_eq rfl rfl, .of_eq rfl⟩

/-- A block load writes registers and PC only. -/
theorem onlyRegs_loadRegs (s : State) (x : RegIdx) (a : Nat) : OnlyRegs s (s.loadRegs x a).advance := by
  refine ⟨?_, .of_eq rfl rfl, .of_eq rfl⟩
  rw [State.advance, State.setPc, State.loadRegs]

/-- The write of a result and its flag, in the order of 41_alu.md R110. -/
theorem flagWritten_writeFlagged (s : State) (x : RegIdx) {p : Byte × Bool} {r : Byte} {f : Prop} (h1 : p.1 = r)
    (h2 : p.2 = true ↔ f) : FlagWritten s (s.writeFlagged x p) x r f := by
  refine ⟨fun h => ?_, fun h => ?_, fun h => ?_, ?_, rfl, .of_eq rfl rfl, .of_eq rfl⟩
  · simp [flagByte, h2.mpr h]
  · have : p.2 = false := by simpa using mt h2.mp h
    simp [flagByte, this]
  · have h : ¬ x = 15#4 := h
    simp [h, h1]
  · intro r hr
    simp at hr
    simp [hr]

/-- The write of PC that all skips share. -/
theorem skipped_skipIf (s : State) {b : Bool} {c : Prop} (h : b = true ↔ c) : Skipped s (s.skipIf b) c := by
  refine ⟨fun hc => ?_, fun hc => ?_, ?_, .of_eq (by simp), .of_eq (by simp) (by simp), .of_eq (by simp)⟩
  · simp [h.mpr hc]
  · have : b = false := by simpa using mt h.mp hc
    simp [this]
  · cases b <;> rfl

/-! ### Sprites -/

theorem State.spriteInBounds_iff (s : State) (n : Nibble) :
    s.spriteInBounds n = true ↔ n = 0 ∨ s.i.toNat + (n.toNat - 1) ≤ 0xFFF := by
  rw [State.spriteInBounds, Bool.or_eq_true, State.reaches_iff, beq_iff_eq]

theorem State.bytesAt_congr {s t : State} (hf : t.font = s.font) (hm : t.mem = s.mem) (a n : Nat) :
    t.bytesAt a n = s.bytesAt a n := by
  induction n generalizing a with
  | zero => rfl
  | succ n ih => rw [State.bytesAt, State.bytesAt, ih, State.byteAt_congr hf hm]

/-- A sprite depends on registers, I, memory and the bitmap only. -/
theorem State.blitSprite_congr {s t : State} (hv : t.v = s.v) (hi : t.i = s.i) (hf : t.font = s.font)
    (hm : t.mem = s.mem) (hfb : t.fb = s.fb) (x y : RegIdx) (n : Nibble) : t.blitSprite x y n = s.blitSprite x y n := by
  rw [State.blitSprite, State.blitSprite, hi, hfb, State.bytesAt_congr hf hm, State.getV_congr hv, State.getV_congr hv]

/-- The pixels `SpriteCovers` speaks of are those of the list that `blitSprite` inverts. -/
theorem spriteCovers_iff (s : State) (x y : RegIdx) (n : Nibble) (row : Fin 32) (col : Fin 64) :
    SpriteCovers s x y n row col ↔
      (row, col) ∈ spritePixels (s.bytesAt s.i.toNat n.toNat) (s.getV x).toNat (s.getV y).toNat := by
  rw [mem_spritePixels, State.length_bytesAt]
  refine exists_congr fun r => and_congr_right fun hr => exists_congr fun c => and_congr_right fun _ => ?_
  rw [State.getD_bytesAt _ _ _ _ hr]
  simp [wrapRow, wrapCol, Prod.ext_iff, Fin.ext_iff]

/-- What `blitSprite` does: a covered pixel is inverted, and `hit` says whether one was set. -/
theorem State.blitSprite_spec (s : State) (x y : RegIdx) (n : Nibble) :
    (∀ r c, SpriteCovers s x y n r c → Bitmap.get (s.blitSprite x y n).1 r c = !s.pixel r c) ∧
    (∀ r c, ¬ SpriteCovers s x y n r c → Bitmap.get (s.blitSprite x y n).1 r c = s.pixel r c) ∧
    ((s.blitSprite x y n).2 = true ↔ ∃ r c, SpriteCovers s x y n r c ∧ s.pixel r c = true) := by
  have hl : (s.bytesAt s.i.toNat n.toNat).length ≤ 32 := by
    have := n.isLt
    rw [State.length_bytesAt]; omega
  have h := blit_spec _ (nodup_spritePixels _ hl (s.getV x).toNat (s.getV y).toNat) s.fb false
  refine ⟨fun r c hc => ?_, fun r c hc => ?_, ?_⟩
  · exact (h.1 r c).trans (by simp [← spriteCovers_iff, hc, State.pixel])
  · exact (h.1 r c).trans (by simp [← spriteCovers_iff, hc, State.pixel])
  · rw [State.blitSprite, h.2]
    simp [spriteCovers_iff, State.pixel]

end Sys2Proof.Machine
end

