-- ==== Sys2Proof/Laws/Meanings.lean ====
section
/-! SUPPORT. The six meanings that can raise a fault, each with the check that decides (the other 28 answer one next
state by definition), and the list of instructions executed one after another. -/

namespace Sys2Proof.Machine

theorem execDraw_ok {s : State} {n : Nibble} (x y : RegIdx) (h : n = 0 ∨ s.i.toNat + (n.toNat - 1) ≤ 0xFFF) :
    execDraw x y n s =
      .next ({ s with fb := (s.blitSprite x y n).1 }.setV 15 (flagByte (s.blitSprite x y n).2)).advance :=
  if_pos ((s.spriteInBounds_iff n).mpr h)

theorem execDraw_fault {s : State} {n : Nibble} (x y : RegIdx) (h : ¬ (n = 0 ∨ s.i.toNat + (n.toNat - 1) ≤ 0xFFF)) :
    execDraw x y n s = .next (s.raise .outOfBounds (encode (.draw x y n)) s.i) :=
  if_neg (mt (s.spriteInBounds_iff n).mp h)

theorem execMovBcd_ok {s : State} (x : RegIdx) (h : s.i.toNat + 2 ≤ 0xFFF) :
    execMovBcd x s = .next (s.store s.i.toNat (bcdDigits (s.getV x))).advance :=
  if_pos ((s.reaches_iff 2).mpr h)

theorem execMovBcd_fault {s : State} (x : RegIdx) (h : 0xFFF < s.i.toNat + 2) :
    execMovBcd x s = .next (s.raise .outOfBounds (encode (.movBcd x)) s.i) :=
  if_neg (mt (s.reaches_iff 2).mp (Nat.not_le.mpr h))

theorem execWriteM_ok {s : State} {x : RegIdx} (h : s.i.toNat + x.toNat ≤ 0xFFF) :
    execWriteM x s = .next (s.store s.i.toNat (s.lowRegs x)).advance :=
  if_pos ((s.reaches_iff _).mpr h)

theorem execWriteM_fault {s : State} {x : RegIdx} (h : 0xFFF < s.i.toNat + x.toNat) :
    execWriteM x s = .next (s.raise .outOfBounds (encode (.writeM x)) s.i) :=
  if_neg (mt (s.reaches_iff _).mp (Nat.not_le.mpr h))

theorem execReadM_ok {s : State} {x : RegIdx} (h : s.i.toNat + x.toNat ≤ 0xFFF) :
    execReadM x s = .next (s.loadRegs x s.i.toNat).advance :=
  if_pos ((s.reaches_iff _).mpr h)

theorem execReadM_fault {s : State} {x : RegIdx} (h : 0xFFF < s.i.toNat + x.toNat) :
    execReadM x s = .next (s.raise .outOfBounds (encode (.readM x)) s.i) :=
  if_neg (mt (s.reaches_iff _).mp (Nat.not_le.mpr h))

theorem execCall_ok {s : State} (nnn : Addr12) (h : s.sp.val < 16) :
    execCall nnn s = .next ({ s with stack := s.stack.set s.sp.val (s.pc + 2) h, sp := ⟨s.sp.val + 1, by omega⟩ }.setPc
      (wordOfAddr nnn)) :=
  dif_pos h

theorem execCall_fault {s : State} (nnn : Addr12) (h : s.sp.val = 16) :
    execCall nnn s = .next (s.raise .stackOverflow (encode (.call nnn)) 0) :=
  dif_neg (by omega)

theorem execRet_ok {s : State} (h : 0 < s.sp.val) :
    execRet s = .next ({ s with sp := ⟨s.sp.val - 1, by omega⟩ }.setPc (s.stack[s.sp.val - 1]'(by omega))) :=
  dif_pos h

theorem execRet_fault {s : State} (h : s.sp.val = 0) : execRet s = .next (s.raise .stackUnderflow (encode .ret) 0) :=
  dif_neg (by omega)

/-- Everything an instruction can do to control state: raise a fault; go on with the stack kept; push (`CALL`); pop
(`RET`); or enter the wait for a key (`LD Vx, K`). -/
theorem exec_cases {i : Instr} {s t : State} (h : exec i s = .next t) :
    (∃ k w a, k ≠ .none ∧ t = s.raise k w a) ∨
    (t.mode = s.mode ∧ t.fault = s.fault ∧ t.stack = s.stack ∧ t.sp = s.sp ∧ t.font = s.font ∧ (s.memOk → t.memOk) ∧
      (t.pc = s.pc + 2 ∨ t.pc = s.pc + 4 ∨ t.pc.toNat ≤ 0x10FE)) ∨
    (t.mode = s.mode ∧ t.fault = s.fault ∧ t.mem = s.mem ∧ t.font = s.font ∧ t.pc.toNat ≤ 0xFFF ∧
      t.sp.val = s.sp.val + 1 ∧ ∃ _ : s.sp.val < 16, t.stack = s.stack.set s.sp.val (s.pc + 2)) ∨
    (t.mode = s.mode ∧ t.fault = s.fault ∧ t.mem = s.mem ∧ t.font = s.font ∧ t.stack = s.stack ∧
      s.sp.val = t.sp.val + 1 ∧ ∃ k : Fin 16, k.val + 1 = s.sp.val ∧ t.pc = s.stack[k.val]'(k.isLt)) ∨
    (∃ x, t.mode = .awaitingKey x ∧ t.fault = s.fault ∧ t.mem = s.mem ∧ t.font = s.font ∧ t.stack = s.stack ∧
      t.sp = s.sp ∧ t.pc = s.pc) := by
  cases i
  all_goals unfold exec at h; dsimp only at h
  case draw x y n =>
    by_cases hb : n = 0 ∨ s.i.toNat + (n.toNat - 1) ≤ 0xFFF
    · rw [execDraw_ok _ _ hb] at h; cases h
      exact .inr (.inl ⟨rfl, rfl, rfl, rfl, rfl, id, .inl rfl⟩)
    · rw [execDraw_fault _ _ hb] at h; cases h; exact .inl ⟨_, _, _, by decide, rfl⟩
  case call nnn =>
    by_cases hb : s.sp.val < 16
    · rw [execCall_ok _ hb] at h; cases h
      refine .inr (.inr (.inl ⟨rfl, rfl, rfl, rfl, ?_, rfl, hb, rfl⟩))
      have := nnn.isLt
      simp; omega
    · rw [execCall_fault _ (by omega)] at h; cases h; exact .inl ⟨_, _, _, by decide, rfl⟩
  case ret =>
    by_cases hb : 0 < s.sp.val
    · rw [execRet_ok hb] at h; cases h
      refine .inr (.inr (.inr (.inl ⟨rfl, rfl, rfl, rfl, rfl, ?_, ⟨s.sp.val - 1, by omega⟩, ?_, rfl⟩)))
      · show _ = s.sp.val - 1 + 1; omega
      · show s.sp.val - 1 + 1 = _; omega
    · rw [execRet_fault (by omega)] at h; cases h; exact .inl ⟨_, _, _, by decide, rfl⟩
  case movBcd x =>
    by_cases hb : s.i.toNat + 2 ≤ 0xFFF
    · rw [execMovBcd_ok _ hb] at h; cases h
      refine .inr (.inl ⟨rfl, rfl, rfl, rfl, rfl, fun hm => ?_, .inl rfl⟩)
      exact Memory.wf_writeAll _ hm (by rw [length_bcdDigits, Config.lastAddr]; omega)
    · rw [execMovBcd_fault _ (by omega)] at h; cases h; exact .inl ⟨_, _, _, by decide, rfl⟩
  case writeM x =>
    by_cases hb : s.i.toNat + x.toNat ≤ 0xFFF
    · rw [execWriteM_ok hb] at h; cases h
      refine .inr (.inl ⟨rfl, rfl, rfl, rfl, rfl, fun hm => ?_, .inl rfl⟩)
      exact Memory.wf_writeAll _ hm (by rw [State.length_lowRegs, Config.lastAddr]; omega)
    · rw [execWriteM_fault (by omega)] at h; cases h; exact .inl ⟨_, _, _, by decide, rfl⟩
  case readM x =>
    by_cases hb : s.i.toNat + x.toNat ≤ 0xFFF
    · rw [execReadM_ok hb] at h; injection h with h; rw [← h]
      exact .inr (.inl ⟨by simp, by simp, by simp, by simp, by simp, by simp [State.memOk], .inl (by simp)⟩)
    · rw [execReadM_fault (by omega)] at h; cases h; exact .inl ⟨_, _, _, by decide, rfl⟩
  case waitKey x => cases h; exact .inr (.inr (.inr (.inr ⟨x, rfl, rfl, rfl, rfl, rfl, rfl, rfl⟩)))
  case jp nnn =>
    cases h
    refine .inr (.inl ⟨rfl, rfl, rfl, rfl, rfl, id, .inr (.inr ?_)⟩)
    have := nnn.isLt
    simp; omega
  case jpV0 nnn =>
    cases h
    refine .inr (.inl ⟨rfl, rfl, rfl, rfl, rfl, id, .inr (.inr ?_)⟩)
    have := nnn.isLt; have := (s.getV 0).isLt
    simp at *; omega
  case seImm | sneImm | seReg | sneReg | skipKey | skipNoKey =>
    cases h
    refine .inr (.inl ⟨by simp, by simp, by simp, by simp, by simp, by simp [State.memOk], ?_⟩)
    rw [State.skipIf_pc]
    split
    · exact .inr (.inl rfl)
    · exact .inl rfl
  all_goals (cases h; exact .inr (.inl ⟨rfl, rfl, rfl, rfl, rfl, id, .inl rfl⟩))

/-! ### Lists of instructions -/

/-- An instruction that goes on, then the rest of the list. -/
theorem execAll_cons {i : Instr} {is : List Instr} {s t : State} (h : exec i s = .next t) (hm : t.mode ≠ .halted) :
    execAll (i :: is) s = execAll is t := by
  rw [execAll, h]; exact if_neg hm

theorem execAll_append {is js : List Instr} {s t : State} (h : execAll is s = .next t) (hm : t.mode ≠ .halted) :
    execAll (is ++ js) s = execAll js t := by
  induction is generalizing s with
  | nil => cases h; rfl
  | cons i is ih =>
    rw [execAll] at h
    cases hi : exec i s with
    | fault r => rw [hi] at h; cases h
    | refused r => rw [hi] at h; cases h
    | next u =>
      rw [hi] at h
      dsimp only at h
      by_cases hu : u.mode = .halted
      · rw [if_pos hu] at h; cases h; exact absurd hu hm
      · rw [if_neg hu] at h; rw [List.cons_append, execAll_cons hi hu, ih h]

end Sys2Proof.Machine
end

