-- ==== Sys2Proof/Laws/PerInstr.lean ====
section
/-! SUPPORT. Statements about every instruction as syntax: its word belongs to its row of the opcode map
(spec/30_encoding.md R76), one lemma per constructor. -/

namespace Sys2Proof.Laws.OpcodeMap

/-- The row of `i` is one of the 34 rows of R76, and the word of `i` selects it. -/
def Statement (i : Instr) : Prop := i.row ∈ opcodeTable ∧ i.row.selects (encode i) = true

theorem cls : Statement .cls := ⟨by decide, by decide⟩

theorem ret : Statement .ret := ⟨by decide, by decide⟩

theorem jp (nnn : Addr12) : Statement (.jp nnn) :=
  ⟨(by decide : (Instr.jp 0).row ∈ opcodeTable), beq_iff_eq.mpr ((formatNNN_and_op 0x1#4 nnn).trans rfl)⟩

theorem call (nnn : Addr12) : Statement (.call nnn) :=
  ⟨(by decide : (Instr.call 0).row ∈ opcodeTable), beq_iff_eq.mpr ((formatNNN_and_op 0x2#4 nnn).trans rfl)⟩

theorem seImm (x : RegIdx) (kk : Byte) : Statement (.seImm x kk) :=
  ⟨(by decide : (Instr.seImm 0 0).row ∈ opcodeTable), beq_iff_eq.mpr ((formatXKK_and_op 0x3#4 x kk).trans rfl)⟩

theorem sneImm (x : RegIdx) (kk : Byte) : Statement (.sneImm x kk) :=
  ⟨(by decide : (Instr.sneImm 0 0).row ∈ opcodeTable), beq_iff_eq.mpr ((formatXKK_and_op 0x4#4 x kk).trans rfl)⟩

theorem seReg (x : RegIdx) (y : RegIdx) : Statement (.seReg x y) :=
  ⟨(by decide : (Instr.seReg 0 0).row ∈ opcodeTable), beq_iff_eq.mpr ((formatXYN_and_op 0x5#4 x y 0x0#4).trans rfl)⟩

theorem ldImm (x : RegIdx) (kk : Byte) : Statement (.ldImm x kk) :=
  ⟨(by decide : (Instr.ldImm 0 0).row ∈ opcodeTable), beq_iff_eq.mpr ((formatXKK_and_op 0x6#4 x kk).trans rfl)⟩

theorem addImm (x : RegIdx) (kk : Byte) : Statement (.addImm x kk) :=
  ⟨(by decide : (Instr.addImm 0 0).row ∈ opcodeTable), beq_iff_eq.mpr ((formatXKK_and_op 0x7#4 x kk).trans rfl)⟩

theorem ldReg (x : RegIdx) (y : RegIdx) : Statement (.ldReg x y) :=
  ⟨(by decide : (Instr.ldReg 0 0).row ∈ opcodeTable), beq_iff_eq.mpr ((formatXYN_and_low 0x8#4 x y 0x0#4).trans rfl)⟩

theorem orReg (x : RegIdx) (y : RegIdx) : Statement (.orReg x y) :=
  ⟨(by decide : (Instr.orReg 0 0).row ∈ opcodeTable), beq_iff_eq.mpr ((formatXYN_and_low 0x8#4 x y 0x1#4).trans rfl)⟩

theorem andReg (x : RegIdx) (y : RegIdx) : Statement (.andReg x y) :=
  ⟨(by decide : (Instr.andReg 0 0).row ∈ opcodeTable), beq_iff_eq.mpr ((formatXYN_and_low 0x8#4 x y 0x2#4).trans rfl)⟩

theorem xorReg (x : RegIdx) (y : RegIdx) : Statement (.xorReg x y) :=
  ⟨(by decide : (Instr.xorReg 0 0).row ∈ opcodeTable), beq_iff_eq.mpr ((formatXYN_and_low 0x8#4 x y 0x3#4).trans rfl)⟩

theorem addReg (x : RegIdx) (y : RegIdx) : Statement (.addReg x y) :=
  ⟨(by decide : (Instr.addReg 0 0).row ∈ opcodeTable), beq_iff_eq.mpr ((formatXYN_and_low 0x8#4 x y 0x4#4).trans rfl)⟩

theorem sub (x : RegIdx) (y : RegIdx) : Statement (.sub x y) :=
  ⟨(by decide : (Instr.sub 0 0).row ∈ opcodeTable), beq_iff_eq.mpr ((formatXYN_and_low 0x8#4 x y 0x5#4).trans rfl)⟩

theorem shr (x : RegIdx) (y : RegIdx) : Statement (.shr x y) :=
  ⟨(by decide : (Instr.shr 0 0).row ∈ opcodeTable), beq_iff_eq.mpr ((formatXYN_and_low 0x8#4 x y 0x6#4).trans rfl)⟩

theorem subn (x : RegIdx) (y : RegIdx) : Statement (.subn x y) :=
  ⟨(by decide : (Instr.subn 0 0).row ∈ opcodeTable), beq_iff_eq.mpr ((formatXYN_and_low 0x8#4 x y 0x7#4).trans rfl)⟩

theorem shl (x : RegIdx) (y : RegIdx) : Statement (.shl x y) :=
  ⟨(by decide : (Instr.shl 0 0).row ∈ opcodeTable), beq_iff_eq.mpr ((formatXYN_and_low 0x8#4 x y 0xE#4).trans rfl)⟩

theorem sneReg (x : RegIdx) (y : RegIdx) : Statement (.sneReg x y) :=
  ⟨(by decide : (Instr.sneReg 0 0).row ∈ opcodeTable), beq_iff_eq.mpr ((formatXYN_and_op 0x9#4 x y 0x0#4).trans rfl)⟩

theorem ldI (nnn : Addr12) : Statement (.ldI nnn) :=
  ⟨(by decide : (Instr.ldI 0).row ∈ opcodeTable), beq_iff_eq.mpr ((formatNNN_and_op 0xA#4 nnn).trans rfl)⟩

theorem jpV0 (nnn : Addr12) : Statement (.jpV0 nnn) :=
  ⟨(by decide : (Instr.jpV0 0).row ∈ opcodeTable), beq_iff_eq.mpr ((formatNNN_and_op 0xB#4 nnn).trans rfl)⟩

theorem rnd (x : RegIdx) (kk : Byte) : Statement (.rnd x kk) :=
  ⟨(by decide : (Instr.rnd 0 0).row ∈ opcodeTable), beq_iff_eq.mpr ((formatXKK_and_op 0xC#4 x kk).trans rfl)⟩

theorem draw (x : RegIdx) (y : RegIdx) (n : Nibble) : Statement (.draw x y n) :=
  ⟨(by decide : (Instr.draw 0 0 0).row ∈ opcodeTable), beq_iff_eq.mpr ((formatXYN_and_op 0xD#4 x y n).trans rfl)⟩

theorem skipKey (x : RegIdx) : Statement (.skipKey x) :=
  ⟨(by decide : (Instr.skipKey 0).row ∈ opcodeTable), beq_iff_eq.mpr ((formatXKK_and_low 0xE#4 x 0x9E#8).trans rfl)⟩

theorem skipNoKey (x : RegIdx) : Statement (.skipNoKey x) :=
  ⟨(by decide : (Instr.skipNoKey 0).row ∈ opcodeTable), beq_iff_eq.mpr ((formatXKK_and_low 0xE#4 x 0xA1#8).trans rfl)⟩

theorem ldVxDt (x : RegIdx) : Statement (.ldVxDt x) :=
  ⟨(by decide : (Instr.ldVxDt 0).row ∈ opcodeTable), beq_iff_eq.mpr ((formatXKK_and_low 0xF#4 x 0x07#8).trans rfl)⟩

theorem waitKey (x : RegIdx) : Statement (.waitKey x) :=
  ⟨(by decide : (Instr.waitKey 0).row ∈ opcodeTable), beq_iff_eq.mpr ((formatXKK_and_low 0xF#4 x 0x0A#8).trans rfl)⟩

theorem ldDtVx (x : RegIdx) : Statement (.ldDtVx x) :=
  ⟨(by decide : (Instr.ldDtVx 0).row ∈ opcodeTable), beq_iff_eq.mpr ((formatXKK_and_low 0xF#4 x 0x15#8).trans rfl)⟩

theorem ldStVx (x : RegIdx) : Statement (.ldStVx x) :=
  ⟨(by decide : (Instr.ldStVx 0).row ∈ opcodeTable), beq_iff_eq.mpr ((formatXKK_and_low 0xF#4 x 0x18#8).trans rfl)⟩

theorem addI (x : RegIdx) : Statement (.addI x) :=
  ⟨(by decide : (Instr.addI 0).row ∈ opcodeTable), beq_iff_eq.mpr ((formatXKK_and_low 0xF#4 x 0x1E#8).trans rfl)⟩

theorem ldF (x : RegIdx) : Statement (.ldF x) :=
  ⟨(by decide : (Instr.ldF 0).row ∈ opcodeTable), beq_iff_eq.mpr ((formatXKK_and_low 0xF#4 x 0x29#8).trans rfl)⟩

theorem movBcd (x : RegIdx) : Statement (.movBcd x) :=
  ⟨(by decide : (Instr.movBcd 0).row ∈ opcodeTable), beq_iff_eq.mpr ((formatXKK_and_low 0xF#4 x 0x33#8).trans rfl)⟩

theorem writeM (x : RegIdx) : Statement (.writeM x) :=
  ⟨(by decide : (Instr.writeM 0).row ∈ opcodeTable), beq_iff_eq.mpr ((formatXKK_and_low 0xF#4 x 0x55#8).trans rfl)⟩

theorem readM (x : RegIdx) : Statement (.readM x) :=
  ⟨(by decide : (Instr.readM 0).row ∈ opcodeTable), beq_iff_eq.mpr ((formatXKK_and_low 0xF#4 x 0x65#8).trans rfl)⟩

end Sys2Proof.Laws.OpcodeMap
end

