-- ==== Sys2Proof/Machine/Assembler.lean ====
section
/-! DEFINITION. The assembler's syntax (spec/30_encoding.md R82, R83), read: a mnemonic, then operands separated by commas;
the source's own operation names as aliases; the directives `DB` and `DW`. No part of the machine: an image is what
`Reset` loads. -/

namespace Sys2Proof

/-- An operand as it is written (R82). -/
inductive AsmOperand where
  /-- `V0` to `VF`. -/
  | reg (x : RegIdx)
  /-- `kk`, `nnn`, `n`, or an item of `DB` and `DW`. -/
  | num (n : Nat)
  /-- `I`. -/
  | addrReg
  /-- `DT`. -/
  | delay
  /-- `ST`. -/
  | sound
  /-- `K`. -/
  | key
  /-- `F`. -/
  | font
  /-- `B`. -/
  | bcd
  /-- `[I]`. -/
  | atI
  deriving DecidableEq, Repr

/-- One line of a program: an instruction or bytes placed as they stand (R83). -/
inductive AsmItem where
  | instr (i : Instr)
  /-- `DB b, b, ...`. -/
  | bytes (bs : List Byte)
  /-- `DW w`. -/
  | word (w : Word)
  deriving DecidableEq, Repr

/-- The value of a hexadecimal digit; a decimal one is below 10. -/
def digitValue (c : Char) : Option Nat :=
  "0123456789ABCDEF".toList.findIdx? (· == c)

/-- A number from its digits, the most significant first. -/
def digitsValue (radix : Nat) : List Char → Nat → Option Nat
  | [], n => some n
  | c :: cs, n =>
    match digitValue c with
    | some d => if d < radix then digitsValue radix cs (n * radix + d) else none
    | none => none

/-- A number: "hexadecimal with `0x`", decimal without. -/
def asmNumber : List Char → Option Nat
  | '0' :: 'x' :: c :: cs => digitsValue 16 (c :: cs) 0
  | c :: cs => digitsValue 10 (c :: cs) 0
  | [] => none

/-- One operand. -/
def asmOperand : List Char → Option AsmOperand
  | ['I'] => some .addrReg
  | ['D', 'T'] => some .delay
  | ['S', 'T'] => some .sound
  | ['K'] => some .key
  | ['F'] => some .font
  | ['B'] => some .bcd
  | ['[', 'I', ']'] => some .atI
  | ['V', c] => (digitValue c).map fun d => .reg (BitVec.ofNat 4 d)
  | cs => (asmNumber cs).map .num

/-- The parts of a text between separators, blanks left out. -/
def splitAtChar (sep : Char) : List Char → List (List Char)
  | [] => [[]]
  | c :: cs =>
    match splitAtChar sep cs with
    | [] => [[c]]
    | p :: ps => if c = sep then [] :: p :: ps else if c = ' ' then p :: ps else (c :: p) :: ps

/-- All of a list of optional values, or none. -/
def allSome {α : Type} : List (Option α) → Option (List α)
  | [] => some []
  | none :: _ => none
  | some a :: os => (allSome os).map (a :: ·)

/-- The operands after the mnemonic. -/
def asmOperands (cs : List Char) : Option (List AsmOperand) :=
  if cs.all (· == ' ') then some [] else allSome ((splitAtChar ',' cs).map asmOperand)

/-- An 8-bit immediate. -/
def asImm8 (n : Nat) (f : Byte → Instr) : Option Instr := if n < 256 then some (f (BitVec.ofNat 8 n)) else none

/-- A 12-bit immediate. -/
def asImm12 (n : Nat) (f : Addr12 → Instr) : Option Instr := if n < 4096 then some (f (BitVec.ofNat 12 n)) else none

/-- A 4-bit immediate. -/
def asImm4 (n : Nat) (f : Nibble → Instr) : Option Instr := if n < 16 then some (f (BitVec.ofNat 4 n)) else none

/-- The forms of `LD` (R76, column "assembler"). -/
def asmLd : List AsmOperand → Option Instr
  | [.reg x, .num n] => asImm8 n (.ldImm x)
  | [.reg x, .reg y] => some (.ldReg x y)
  | [.addrReg, .num n] => asImm12 n .ldI
  | [.reg x, .delay] => some (.ldVxDt x)
  | [.reg x, .key] => some (.waitKey x)
  | [.delay, .reg x] => some (.ldDtVx x)
  | [.sound, .reg x] => some (.ldStVx x)
  | [.font, .reg x] => some (.ldF x)
  | [.bcd, .reg x] => some (.movBcd x)
  | [.atI, .reg x] => some (.writeM x)
  | [.reg x, .atI] => some (.readM x)
  | _ => none

/-- The instruction of a mnemonic and its operands, the source's names among them. `SE`, `SNE` of two registers and `SHR`,
`SHL` of one get the fields R82 gives them: the encoder emits low nibble 0, and y is 0. -/
def asmInstr (mnemonic : String) (ops : List AsmOperand) : Option Instr :=
  match mnemonic, ops with
  | "CLS", [] => some .cls
  | "RET", [] => some .ret
  | "JP", [.num n] => asImm12 n .jp
  | "JP", [.reg x, .num n] => if x = 0 then asImm12 n .jpV0 else none
  | "CALL", [.num n] => asImm12 n .call
  | "SE", [.reg x, .num n] => asImm8 n (.seImm x)
  | "SNE", [.reg x, .num n] => asImm8 n (.sneImm x)
  | "SE", [.reg x, .reg y] => some (.seReg x y)
  | "SNE", [.reg x, .reg y] => some (.sneReg x y)
  | "LD", ops => asmLd ops
  | "ADD", [.reg x, .num n] => asImm8 n (.addImm x)
  | "ADD", [.reg x, .reg y] => some (.addReg x y)
  | "ADD", [.addrReg, .reg x] => some (.addI x)
  | "OR", [.reg x, .reg y] => some (.orReg x y)
  | "AND", [.reg x, .reg y] => some (.andReg x y)
  | "XOR", [.reg x, .reg y] => some (.xorReg x y)
  | "SUB", [.reg x, .reg y] => some (.sub x y)
  | "SHR", [.reg x] => some (.shr x 0)
  | "SHR", [.reg x, .reg y] => some (.shr x y)
  | "SUBN", [.reg x, .reg y] => some (.subn x y)
  | "SHL", [.reg x] => some (.shl x 0)
  | "SHL", [.reg x, .reg y] => some (.shl x y)
  | "RND", [.reg x, .num n] => asImm8 n (.rnd x)
  | "DRW", [.reg x, .reg y, .num n] | "DRAW", [.reg x, .reg y, .num n] => asImm4 n (.draw x y)
  | "SKP", [.reg x] | "SKIPKEY", [.reg x] => some (.skipKey x)
  | "SKNP", [.reg x] | "SKIPNOKEY", [.reg x] => some (.skipNoKey x)
  | "WAITKEY", [.reg x] => some (.waitKey x)
  | "MOVBCD", [.reg x] => some (.movBcd x)
  | "WRITEM", [.reg x] => some (.writeM x)
  | "READM", [.reg x] => some (.readM x)
  | "LD-I", [.num n] => asImm12 n .ldI
  | "ADD-I", [.reg x] => some (.addI x)
  | _, _ => none

/-- The numbers of a directive, each below a bound. -/
def asmNumbers (bound : Nat) : List AsmOperand → Option (List Nat)
  | [] => some []
  | .num n :: ops => if n < bound then (asmNumbers bound ops).map (n :: ·) else none
  | _ :: _ => none

/-- A line: a directive or an instruction. -/
def asmLine (line : String) : Option AsmItem :=
  let mnemonic := String.ofList (line.toList.takeWhile (· != ' '))
  match asmOperands (line.toList.dropWhile (· != ' ')) with
  | none => none
  | some ops =>
    if mnemonic = "DB" then
      match asmNumbers 256 ops with
      | some (n :: ns) => some (.bytes ((n :: ns).map (BitVec.ofNat 8)))
      | _ => none
    else if mnemonic = "DW" then
      match asmNumbers 65536 ops with
      | some [n] => some (.word (BitVec.ofNat 16 n))
      | _ => none
    else (asmInstr mnemonic ops).map .instr

/-- The bytes of one item, a word big-endian (R83). -/
def AsmItem.image : AsmItem → List Byte
  | .instr i => encodeBytes i
  | .bytes bs => bs
  | .word w => wordBytes w

/-- The image of a program: its lines one after another, with absolute addresses and no labels (R83). -/
def assemble (lines : List String) : Option (List Byte) :=
  (allSome (lines.map asmLine)).map fun items => items.flatMap AsmItem.image

end Sys2Proof
end

