-- ==== Sys2Proof/Tests/Slice0.lean ====
section
/-! SUPPORT. Tests: words of spec/30_encoding.md R72 and R76, vectors of spec/95_test_vectors.md (named by their ids), an
ill-formed term for each check, and for each obligation with hypotheses a state and operands that meet them. -/

namespace Sys2Proof.Tests

open Sys2Proof Sys2Proof.Machine

/-- The reset state with words stored from 0x200 on. -/
def loaded (ws : List Word) : State := State.reset.store 0x200 (ws.flatMap wordBytes)

/-- What one reads off the next state an outcome answers. -/
def got {α : Type} (o : Outcome) (f : State → α) : Option α :=
  match o with
  | .next t => some (f t)
  | .fault _ => none
  | .refused _ => none

/-- Two registers and VF. -/
def regs (x y : RegIdx) (s : State) : Byte × Byte × Byte := (s.getV x, s.getV y, s.getV 15)

/-! ### Encodings: a word written out from R76 for every constructor -/

theorem test_decode_display : decode 0x00E0#16 = .ok .cls ∧ decode 0xD125#16 = .ok (.draw 1 2 5) := by decide

theorem test_decode_flow :
    decode 0x00EE#16 = .ok .ret ∧ decode 0x1ABC#16 = .ok (.jp 0xABC) ∧ decode 0x2ABC#16 = .ok (.call 0xABC) ∧
      decode 0xBABC#16 = .ok (.jpV0 0xABC) := by decide

theorem test_decode_skip :
    decode 0x3A56#16 = .ok (.seImm 0xA 0x56) ∧ decode 0x4A56#16 = .ok (.sneImm 0xA 0x56) ∧
      decode 0x5AB7#16 = .ok (.seReg 0xA 0xB) ∧ decode 0x9AB0#16 = .ok (.sneReg 0xA 0xB) ∧
      decode 0xEA9E#16 = .ok (.skipKey 0xA) ∧ decode 0xEAA1#16 = .ok (.skipNoKey 0xA) := by decide

theorem test_decode_alu_moves :
    decode 0x6A56#16 = .ok (.ldImm 0xA 0x56) ∧ decode 0x7A56#16 = .ok (.addImm 0xA 0x56) ∧
      decode 0x8AB0#16 = .ok (.ldReg 0xA 0xB) ∧ decode 0x8AB1#16 = .ok (.orReg 0xA 0xB) ∧
      decode 0x8AB2#16 = .ok (.andReg 0xA 0xB) ∧ decode 0x8AB3#16 = .ok (.xorReg 0xA 0xB) := by decide

theorem test_decode_alu_flags :
    decode 0x8AB4#16 = .ok (.addReg 0xA 0xB) ∧ decode 0x8AB5#16 = .ok (.sub 0xA 0xB) ∧
      decode 0x8AB6#16 = .ok (.shr 0xA 0xB) ∧ decode 0x8AB7#16 = .ok (.subn 0xA 0xB) ∧
      decode 0x8ABE#16 = .ok (.shl 0xA 0xB) ∧ decode 0xCA0F#16 = .ok (.rnd 0xA 0x0F) := by decide

theorem test_decode_memory :
    decode 0xAABC#16 = .ok (.ldI 0xABC) ∧ decode 0xFA1E#16 = .ok (.addI 0xA) ∧ decode 0xFA29#16 = .ok (.ldF 0xA) ∧
      decode 0xFA33#16 = .ok (.movBcd 0xA) ∧ decode 0xFA55#16 = .ok (.writeM 0xA) ∧
      decode 0xFA65#16 = .ok (.readM 0xA) := by decide

theorem test_decode_timers_keys :
    decode 0xFA07#16 = .ok (.ldVxDt 0xA) ∧ decode 0xFA0A#16 = .ok (.waitKey 0xA) ∧
      decode 0xFA15#16 = .ok (.ldDtVx 0xA) ∧ decode 0xFA18#16 = .ok (.ldStVx 0xA) := by decide

/-- The high byte comes first (20_memory.md R51). -/
theorem test_bytes_are_big_endian :
    encodeBytes (.draw 1 2 5) = [0xD1, 0x25] ∧ decodeBytes [0x12, 0x04, 0xFF] = .ok (.jp 0x204, [0xFF]) := by decide

theorem test_decode_truncated : decodeBytes [] = .error .truncated ∧ decodeBytes [0x12] = .error .truncated := by decide

theorem test_table_word :
    decodeTableWord 16 0xF465 = some (.readM 4) ∧ decodeTableWord 16 0x0000 = none ∧
      decodeTableWord 8 0x12E0 = some .cls := by decide

/-- Spellings of 95_test_vectors.md A1, A22, A24, F10, I16, I20. -/
theorem test_asm :
    (Instr.ldImm 3 0xAB).asm = "LD V3, 0xAB" ∧ (Instr.shr 2 0).asm = "SHR V2" ∧ (Instr.shr 2 0xA).asm = "SHR V2, VA" ∧
      (Instr.jpV0 0x300).asm = "JP V0, 0x300" ∧ (Instr.writeM 1).asm = "LD [I], V1" ∧
      (Instr.readM 2).asm = "LD V2, [I]" := by decide

/-- Lines of R82 with the source's names, the directives of R83, and lines that name no instruction. -/
theorem test_asm_lines :
    asmLine "WAITKEY VF" = some (.instr (.waitKey 15)) ∧ asmLine "DB 0xF0, 144" = some (.bytes [0xF0, 0x90]) ∧
      asmLine "DW 0x120A" = some (.word 0x120A) ∧ asmLine "LD V0, 256" = none ∧ asmLine "JP V1, 0x300" = none ∧
      asmLine "NOP" = none := by decide

/-- The listing and the image of program P3 (Part 4). -/
theorem test_asm_P3 :
    assemble ["LD I, 0x210", "LD V0, 0x3E", "LD V1, 0x1F", "DRW V0, V1, 2", "LD V2, VF", "ADD V0, 0x01",
        "DRW V0, V1, 2", "JP 0x20E", "DB 0xF0, 0x90"] =
      some [0xA2, 0x10, 0x60, 0x3E, 0x61, 0x1F, 0xD0, 0x12, 0x82, 0xF0, 0x70, 0x01, 0xD0, 0x12, 0x12, 0x0E, 0xF0, 0x90] := by
  decide

/-! ### Ill-formed terms -/

/-- One word of each illegal space of R79 (X1, X4, X6, X8), and the neighbours that are legal. -/
theorem test_illegal_words_refused :
    wordLegal 0x0000 = false ∧ wordLegal 0x8128 = false ∧ wordLegal 0xE19F = false ∧ wordLegal 0xF000 = false ∧
      wordLegal 0x00E0 = true ∧ wordLegal 0x8127 = true ∧ wordLegal 0xE19E = true ∧ wordLegal 0xF007 = true := by decide

theorem test_illegal_words_do_not_decode :
    decode 0x00E1#16 = .error (.unknownOpcode 0x00E1) ∧ decode 0x812F#16 = .error (.unknownOpcode 0x812F) ∧
      decode 0xE0A2#16 = .error (.unknownOpcode 0xE0A2) ∧ decode 0xF175#16 = .error (.unknownOpcode 0xF175) := by decide

theorem test_opcode_table : opcodeTable.length = 34 ∧ opcodeTable.Pairwise (· ≠ ·) := by decide

/-- E15, E16. -/
theorem test_image_length :
    imageWellFormed (List.replicate 3584 0) = true ∧ imageWellFormed (List.replicate 3585 0) = false := by
  constructor <;> rw [imageWellFormed, List.length_replicate] <;> decide

/-- A list out of order, with a repeat, beyond 0xFFF, with a byte equal to its reset byte. -/
theorem test_memory_form :
    Memory.wf Config.defaultFont [(0x300, 1), (0x200, 2)] = false ∧
      Memory.wf Config.defaultFont [(0x300, 1), (0x300, 2)] = false ∧
      Memory.wf Config.defaultFont [(0x1000, 1)] = false ∧ Memory.wf Config.defaultFont [(0x300, 0)] = false ∧
      Memory.wf Config.defaultFont [(0x000, 0xF0)] = false ∧
      Memory.wf Config.defaultFont [(0x000, 0), (0xFFF, 1)] = true := by decide

/-- 10_state.md R39 b at its limits. -/
theorem test_return_address :
    returnAddress 0x000 = false ∧ returnAddress 0x203 = false ∧ returnAddress 0x1002 = false ∧
      returnAddress 0x002 = true ∧ returnAddress 0x1000 = true := by decide

/-! ### Register file and ALU (vectors A) -/

theorem test_A1_ldImm : got (step (loaded [0x63AB])) (fun t => (t.getV 3, t.pc)) = some (0xAB, 0x202) := by decide
theorem test_A4_addImm :
    got (step ((loaded [0x7101]).setV 1 0xFF |>.setV 15 1)) (regs 1 1) = some (0x00, 0x00, 0x01) := by decide
theorem test_A6_ldReg : got (step ((loaded [0x81F0]).setV 15 1)) (regs 1 0) = some (0x01, 0x00, 0x01) := by decide
theorem test_A7_or :
    got (step ((loaded [0x8011]).setV 0 0xF0 |>.setV 1 0x0F |>.setV 15 1)) (regs 0 1) = some (0xFF, 0x0F, 0x01) := by decide
theorem test_A8_and :
    got (step ((loaded [0x8012]).setV 0 0xF3 |>.setV 1 0x3F |>.setV 15 1)) (regs 0 1) = some (0x33, 0x3F, 0x01) := by decide
theorem test_A9_xor :
    got (step ((loaded [0x8013]).setV 0 0xFF |>.setV 1 0x0F |>.setV 15 1)) (regs 0 1) = some (0xF0, 0x0F, 0x01) := by decide
theorem test_S2_add :
    got (step ((loaded [0x8014]).setV 0 0xFF |>.setV 1 0x01)) (regs 0 1) = some (0x00, 0x01, 0x01) := by decide
theorem test_A14_add_into_flag :
    got (step ((loaded [0x8F14]).setV 15 0xFF |>.setV 1 0x03)) (regs 15 1) = some (0x01, 0x03, 0x01) := by decide
theorem test_S3_sub :
    got (step ((loaded [0x8015]).setV 0 0x05 |>.setV 1 0x0A)) (regs 0 1) = some (0xFB, 0x0A, 0x00) := by decide
theorem test_A17_sub_equal :
    got (step ((loaded [0x8015]).setV 0 0x07 |>.setV 1 0x07)) (regs 0 1) = some (0x00, 0x07, 0x01) := by decide
theorem test_A24_shr :
    got (step ((loaded [0x82A6]).setV 2 0xFF |>.setV 10 0x12)) (regs 2 10) = some (0x7F, 0x12, 0x01) := by decide
theorem test_A26_shr_flag : got (step ((loaded [0x8F06]).setV 15 0x02)) (regs 15 0) = some (0x00, 0x00, 0x00) := by decide
theorem test_A28_subn :
    got (step ((loaded [0x8017]).setV 0 0x0A |>.setV 1 0x05)) (regs 0 1) = some (0xFB, 0x05, 0x00) := by decide
theorem test_A30_shl : got (step ((loaded [0x820E]).setV 2 0x81)) (regs 2 0) = some (0x02, 0x00, 0x01) := by decide
theorem test_A32_shl_flag : got (step ((loaded [0x8F0E]).setV 15 0x80)) (regs 15 0) = some (0x01, 0x00, 0x01) := by decide
/-- A36: whatever the draw, V2 is it; the counter moves on. -/
theorem test_A36_rnd : got (step (loaded [0xC2FF])) (·.draws) = some 1 := by decide

/-! ### Skips (vectors K) -/

theorem test_K1_K2_seImm :
    got (step (loaded [0x3100])) (·.pc) = some 0x204 ∧ got (step ((loaded [0x3100]).setV 1 1)) (·.pc) = some 0x202 := by
  decide
theorem test_K3_K4_sneImm :
    got (step ((loaded [0x4100]).setV 1 5)) (·.pc) = some 0x204 ∧
      got (step ((loaded [0x4105]).setV 1 5)) (·.pc) = some 0x202 := by decide
theorem test_K6_seReg : got (step ((loaded [0x501F]).setV 0 7 |>.setV 1 7)) (·.pc) = some 0x204 := by decide
theorem test_K9_sneReg : got (step ((loaded [0x9010]).setV 0 7 |>.setV 1 8)) (·.pc) = some 0x204 := by decide
theorem test_K14_skp :
    got (step ({ loaded [0xE29E] with keys := 0x0020 }.setV 2 0xF5)) (·.pc) = some 0x204 := by decide
theorem test_K15_K16_sknp :
    got (step ({ loaded [0xE2A1] with keys := 0x0020 }.setV 2 5)) (·.pc) = some 0x202 ∧
      got (step ({ loaded [0xE2A1] with keys := 0xFFDF }.setV 2 5)) (·.pc) = some 0x204 := by decide
/-- K18: a skip from the last slot does not fault. -/
theorem test_K18_skip_past_the_end :
    got (step { State.reset.store 0xFFE [0x30, 0x00] with pc := 0xFFE }) (fun t => (t.pc, t.mode)) =
      some (0x1002, .running) := by decide

/-! ### Display (vectors D) -/

/-- D12. -/
theorem test_D12_cls :
    got (step ({ loaded [0x00E0] with fb := Bitmap.flip Bitmap.clear 0 1, i := 0x210 }.setV 15 1))
      (fun t => (t.fb == Bitmap.clear, t.getV 15, t.i)) = some (true, 0x01, 0x210) := by decide
/-- D7: 255 mod 64 = 63, 255 mod 32 = 31, and the second pixel wraps to column 0. -/
theorem test_D7_draw_wraps :
    got (step ({ (loaded [0xD011]).store 0x210 [0xC0] with i := 0x210 }.setV 0 0xFF |>.setV 1 0xFF))
      (fun t => t.fb == Bitmap.flip (Bitmap.flip Bitmap.clear 31 63) 31 0) = some true := by decide
/-- D10. -/
theorem test_D10_draw_collides :
    got (step { (loaded [0xD011]).store 0x210 [0x40] with
        i := 0x210, fb := Bitmap.flip (Bitmap.flip Bitmap.clear 0 0) 0 1 })
      (fun t => (t.fb == Bitmap.flip Bitmap.clear 0 0, t.getV 15)) = some (true, 0x01) := by decide

/-! ### Address register, BCD, block transfer (vectors I) -/

theorem test_I2_ldI : got (step (loaded [0xAFFF])) (·.i) = some 0x0FFF := by decide
theorem test_I4_I5_addI :
    got (step ({ loaded [0xF01E] with i := 0x0FFF }.setV 0 1)) (fun t => (t.i, t.getV 15)) = some (0x1000, 0) ∧
      got (step ({ loaded [0xF01E] with i := 0xFFFF }.setV 0 1)) (·.i) = some 0x0000 := by decide
theorem test_I9_ldF : got (step ((loaded [0xF029]).setV 0 0x1A)) (·.i) = some 0x0032 := by decide
theorem test_S9_bcd :
    got (step ({ loaded [0xF033] with i := 0x300 }.setV 0 0xEA)) (·.bytesAt 0x300 3) = some [2, 3, 4] := by decide
theorem test_I14_bcd_faults :
    got (step ({ loaded [0xF033] with i := 0xFFE }.setV 0 0x7B)) (fun t => (t.fault, t.bytesAt 0xFFE 2)) =
      some (⟨.outOfBounds, 0x200, 0xF033, 0x0FFE⟩, [0, 0]) := by decide
theorem test_I16_writeM :
    got (step ({ loaded [0xF155] with i := 0x400 }.setV 0 0x11 |>.setV 1 0x22 |>.setV 2 0x33))
      (fun t => (t.bytesAt 0x400 3, t.i)) = some ([0x11, 0x22, 0x00], 0x400) := by decide
theorem test_I18_writeM_faults :
    got (step ({ loaded [0xFF55] with i := 0xFF1 }.setV 0 0x77)) (fun t => (t.fault, t.byteAt 0xFF1)) =
      some (⟨.outOfBounds, 0x200, 0xFF55, 0x0FF1⟩, 0) := by decide
theorem test_I20_readM :
    got (step { (loaded [0xF265]).store 0x300 [2, 3, 4, 5] with i := 0x300 })
      (fun t => (t.getV 0, t.getV 1, t.getV 2, t.getV 3)) = some (2, 3, 4, 0) := by decide
/-- I21: the first sixteen bytes of the default font. -/
theorem test_I21_readM_font :
    got (step (loaded [0xFF65])) (·.v.toList) =
      some [0xF0, 0x90, 0x90, 0x90, 0xF0, 0x20, 0x60, 0x20, 0x20, 0x70, 0xF0, 0x10, 0xF0, 0x80, 0xF0, 0xF0] := by decide

/-! ### Timers and keys (vectors T, E) -/

theorem test_T1_ldVxDt : got (step { loaded [0xF407] with dt := 6 }) (fun t => (t.getV 4, t.dt)) = some (6, 6) := by decide
theorem test_T2_ldDtVx : got (step ((loaded [0xF315]).setV 3 7)) (·.dt) = some 7 := by decide
theorem test_T3_ldStVx :
    got (step ((loaded [0xF318]).setV 3 2)) (fun t => (t.st, t.soundActive)) = some (2, true) := by decide
theorem test_T5_waitKey :
    got (step { loaded [0xF30A] with keys := 0x0080 }) (fun t => (t.mode, t.keyPrev, t.pc, t.getV 3)) =
      some (.awaitingKey 3, 0x0080, 0x200, 0) := by decide

/-- The state of E5: waiting for V3, no key down. -/
def waiting : State := { loaded [0xF30A] with mode := .awaitingKey 3 }

theorem test_E7_held_key :
    got (step { waiting with keys := 2, keyPrev := 2 }) (fun t => (t.mode, t.pc)) = some (.awaitingKey 3, 0x200) := by
  decide
theorem test_E10_lowest_key :
    got (step { waiting with keys := 0x8100 }) (fun t => (t.getV 3, t.pc, t.mode, t.keyPrev)) =
      some (8, 0x202, .running, 0x8100) := by decide
theorem test_E2_tick :
    got (step { State.reset with dt := 1, st := 1, schedule := .listing [.tick] }) (fun t => (t.dt, t.st, t.soundActive)) =
      some (0, 0, false) := by decide
theorem test_E3_tick_floor :
    got (step { State.reset with schedule := .listing [.tick] }) (fun t => (t.dt, t.st)) = some (0, 0) := by decide
theorem test_E6_setKeys :
    got (step { waiting with schedule := .listing [.setKeys 0x0080] }) (fun t => (t.keys, t.keyPrev, t.mode)) =
      some (0x0080, 0, .awaitingKey 3) := by decide
theorem test_E14_reset :
    got (step { waiting with schedule := .listing [.reset [0x12, 0x00]] })
      (fun t => (t.mode, t.pc, t.bytesAt 0x200 3, t.bytesAt 0 5)) =
      some (.running, 0x200, [0x12, 0, 0], [0xF0, 0x90, 0x90, 0x90, 0xF0]) := by decide

/-! ### Control transfer (vectors F) -/

theorem test_F1_jp : got (step (loaded [0x1204])) (·.pc) = some 0x204 := by decide
theorem test_F5_call :
    got (step { State.reset.store 0x204 [0x22, 0x10] with pc := 0x204 })
      (fun t => (t.stack[0]'(by decide), t.sp, t.pc)) = some (0x206, 1, 0x210) := by decide
theorem test_F7_call_faults :
    got (step { loaded [0x2300] with sp := 16 }) (fun t => (t.fault, t.sp, t.pc)) =
      some (⟨.stackOverflow, 0x200, 0x2300, 0⟩, 16, 0x200) := by decide
theorem test_F8_ret :
    got (step { State.reset.store 0x212 [0x00, 0xEE] with
        pc := 0x212, sp := 1, stack := State.reset.stack.set 0 0x206 (by decide) })
      (fun t => (t.sp, t.pc, t.stack[0]'(by decide))) = some (0, 0x206, 0x206) := by decide
theorem test_F9_ret_faults :
    got (step (loaded [0x00EE])) (·.fault) = some ⟨.stackUnderflow, 0x200, 0x00EE, 0⟩ := by decide
theorem test_F11_jpV0 : got (step ((loaded [0xBFFF]).setV 0 0xFF)) (·.pc) = some 0x10FE := by decide

/-! ### Fetch and decode faults (vectors X) -/

theorem test_X1_zero_word :
    got (step State.reset) (fun t => (t.mode, t.fault, t.report)) =
      some (.halted, ⟨.unknownOpcode, 0x200, 0, 0⟩, .faulted ⟨.unknownOpcode, 0x200, 0, 0⟩) := by decide
theorem test_X11_odd_pc :
    got (step { State.reset with pc := 0x201 }) (·.fault) = some ⟨.misalignedPC, 0x201, 0, 0x201⟩ := by decide
/-- X12: odd and out of bounds, and out of bounds wins. -/
theorem test_X12_pc_past_the_end :
    got (step { State.reset with pc := 0xFFF }) (·.fault) = some ⟨.outOfBounds, 0xFFF, 0, 0xFFF⟩ := by decide
theorem test_X15_last_slot :
    got (step { State.reset.store 0xFFE [0x6A, 0x55] with pc := 0xFFE }) (fun t => (t.getV 10, t.pc, t.mode)) =
      some (0x55, 0x1000, .running) := by decide
/-- X16: code below 0x200 executes. -/
theorem test_X16_low_code :
    got (step { State.reset.store 0x000 [0x6A, 0x55] with pc := 0x000 }) (fun t => (t.getV 10, t.pc)) =
      some (0x55, 0x002) := by decide
theorem test_X17_halted :
    got (step { State.reset with mode := .halted, fault := ⟨.stackUnderflow, 0x200, 0x00EE, 0⟩ })
      (fun t => (t.pc, t.report)) = some (0x200, .faulted ⟨.stackUnderflow, 0x200, 0x00EE, 0⟩) := by decide

/-! ### Witnesses: the hypotheses of each obligation are met -/

theorem witness_DecodedWordsEncodeBack : decode 0x501F#16 = .ok (.seReg 0 1) ∧ decode 0xD125#16 = .ok (.draw 1 2 5) := by
  decide

theorem witness_EachWordSelectsOneRowOrNone :
    decode 0x8AB4#16 = .ok (.addReg 0xA 0xB) ∧ decode 0x8AB8#16 = .error (.unknownOpcode 0x8AB8) ∧
      (Instr.addReg 0xA 0xB).row ∈ opcodeTable := by decide

theorem witness_StepRunsTheDecodedInstruction :
    (loaded [0x63AB]).nextEvent = .step ∧ (loaded [0x63AB]).mode = .running ∧
      (loaded [0x63AB]).pc.toNat + 1 ≤ 0xFFF ∧ (loaded [0x63AB]).pc.toNat % 2 = 0 ∧
      decode ((loaded [0x63AB]).byteAt (loaded [0x63AB]).pc.toNat ++
        (loaded [0x63AB]).byteAt ((loaded [0x63AB]).pc.toNat + 1)) = .ok (.ldImm 3 0xAB) := by decide

/-- The last slot, a state with an event after the `Step`. -/
theorem witness_StepRunsTheDecodedInstruction_last :
    ∃ s : State, s.nextEvent = .step ∧ s.schedule ≠ .listing [] ∧ s.mode = .running ∧ s.pc = 0xFFE ∧ s.pc.toNat + 1 ≤ 0xFFF ∧
      s.pc.toNat % 2 = 0 ∧ decode (s.byteAt s.pc.toNat ++ s.byteAt (s.pc.toNat + 1)) = .ok (.ldImm 10 0x55) :=
  ⟨{ State.reset.store 0xFFE [0x6A, 0x55] with pc := 0xFFE, schedule := .listing [.step, .tick] }, by decide⟩

/-- Both clauses at their boundaries: 0xFFF and 0x1000 are out of bounds, 0xFFD and 0x001 are odd. -/
theorem witness_FetchFaultsAreRaised :
    State.reset.nextEvent = .step ∧ State.reset.mode = .running ∧
      ({ State.reset with pc := 0xFFF } : State).nextEvent = .step ∧ 0xFFF < (0xFFF#16).toNat + 1 ∧
      0xFFF < (0x1000#16).toNat + 1 ∧ (0xFFD#16).toNat + 1 ≤ 0xFFF ∧ (0xFFD#16).toNat % 2 = 1 ∧
      (0x001#16).toNat + 1 ≤ 0xFFF ∧ (0x001#16).toNat % 2 = 1 := by decide

theorem witness_UnknownWordsHalt :
    (loaded [0xF175]).nextEvent = .step ∧ (loaded [0xF175]).mode = .running ∧
      (loaded [0xF175]).pc.toNat + 1 ≤ 0xFFF ∧ (loaded [0xF175]).pc.toNat % 2 = 0 ∧
      0xF175#16 = (loaded [0xF175]).byteAt (loaded [0xF175]).pc.toNat ++
        (loaded [0xF175]).byteAt ((loaded [0xF175]).pc.toNat + 1) ∧
      decode 0xF175#16 = .error (.unknownOpcode 0xF175) := by decide

/-- Two keys newly down, the lower one least; the highest key alone; none. -/
theorem witness_WaitingStepPollsTheKeys :
    waiting.nextEvent = .step ∧ waiting.mode = .awaitingKey 3 ∧
      (NewlyDown { waiting with keys := 0x8100 } 8 ∧ ∀ j : Fin 16, j < 8 → ¬ NewlyDown { waiting with keys := 0x8100 } j) ∧
      (NewlyDown { waiting with keys := 0x8000 } 15 ∧
        ∀ j : Fin 16, j < 15 → ¬ NewlyDown { waiting with keys := 0x8000 } j) ∧
      ∀ k : Fin 16, ¬ NewlyDown { waiting with keys := 2, keyPrev := 2 } k := by
  simp only [NewlyDown]; decide

/-- A halted state, and one in which a `Tick` comes next. -/
def halted : State := { State.reset with mode := .halted, fault := ⟨.unknownOpcode, 0x200, 0, 0⟩ }

theorem witness_HaltedIsTerminal :
    halted.mode = .halted ∧ halted.nextEvent = .step ∧
      ∀ image, ({ halted with schedule := .listing [.tick] } : State).nextEvent ≠ .reset image :=
  ⟨rfl, rfl, fun _ h => Event.noConfusion h⟩

/-- Both outcomes: still halted after a `Tick`, running again after a `Reset`. -/
theorem witness_HaltedIsLeftOnlyByReset :
    (∃ t, halted.mode = .halted ∧ step { halted with schedule := .listing [.tick] } = .next t ∧ t.mode = .halted) ∧
      ∃ t, step { halted with schedule := .listing [.reset [0x12, 0x00]] } = .next t ∧ t.mode = .running :=
  ⟨⟨_, rfl, rfl, rfl⟩, ⟨_, rfl, rfl⟩⟩

theorem witness_FaultsWriteOnlyModeAndFault :
    ∃ t, State.reset.nextEvent = .step ∧ State.reset.mode = .running ∧ step State.reset = .next t ∧ t.mode = .halted :=
  ⟨_, rfl, rfl, rfl, rfl⟩

/-- Every clause: a fetch beyond 0xFFF, an odd PC, an illegal word, RET on the empty stack, CALL on the full one, and an
access one byte beyond 0xFFF. -/
theorem witness_FaultRecordsAreAsTabled :
    got (step { State.reset with pc := 0xFFF }) (·.mode) = some .halted ∧
      got (step { State.reset with pc := 0x201 }) (·.mode) = some .halted ∧
      (wordLegal 0 = false ∧ got (step State.reset) (·.mode) = some .halted) ∧
      got (step (loaded [0x00EE])) (·.mode) = some .halted ∧
      got (step { loaded [0x2300] with sp := 16 }) (·.mode) = some .halted ∧
      (accessReach (.movBcd 0) = some 2 ∧ got (step { loaded [0xF033] with i := 0xFFE }) (·.mode) = some .halted) ∧
      (accessReach (.draw 0 1 2) = some 1 ∧ got (step { loaded [0xD012] with i := 0xFFF }) (·.mode) = some .halted) := by
  decide

theorem witness_EachClassAdvancesPc :
    (∃ t, exec (.seImm 1 0) State.reset = .next t ∧ State.reset.mode = .running ∧ t.mode ≠ .halted) ∧
      (∃ t, exec .ret State.reset = .next t ∧ t.mode = .halted) ∧
      (∃ t, State.reset.sp.val = (0 : Fin 16).val ∧ exec (.call 0x300) State.reset = .next t) ∧
      (∃ t, ({ waiting with keys := 1 } : State).nextEvent = .step ∧
        ({ waiting with keys := 1 } : State).mode = .awaitingKey 3 ∧ step { waiting with keys := 1 } = .next t ∧
        t.mode = .running) ∧
      ∃ t, waiting.nextEvent = .step ∧ step waiting = .next t ∧ t.mode = .awaitingKey 3 :=
  ⟨⟨_, rfl, rfl, by decide⟩, ⟨_, rfl, rfl⟩, ⟨_, rfl, rfl⟩, ⟨_, rfl, rfl, rfl, rfl⟩, ⟨_, rfl, rfl, rfl⟩⟩

theorem witness_TickDecrementsBothTimers : ({ State.reset with st := 1, schedule := .listing [.tick] } : State).nextEvent = .tick := rfl

/-- A change by `LD ST, Vx` and one by `Tick`; a halted state and one that is not. -/
theorem witness_StatusOutputsFollowTheState :
    (∃ t, exec (.ldStVx 3) (State.reset.setV 3 2) = .next t ∧ t.soundActive ≠ (State.reset.setV 3 2).soundActive) ∧
      (∃ t, step { State.reset with st := 1, schedule := .listing [.tick] } = .next t ∧
        t.soundActive ≠ ({ State.reset with st := 1 } : State).soundActive) ∧
      halted.mode = .halted ∧ waiting.mode ≠ .halted :=
  ⟨⟨_, rfl, by decide⟩, ⟨_, rfl, by decide⟩, rfl, by decide⟩

/-- Three listed ticks before a `Step`; and any number, from a schedule that repeats. -/
theorem witness_RepeatedTicksStopAtZero :
    (∀ k < 3, ({ State.reset with schedule := .listing [.tick, .tick, .tick, .step] } : State).schedule.event k = .tick) ∧
      ∀ k < 9, ({ State.reset with schedule := ⟨[], .cycle .tick []⟩ } : State).schedule.event k = .tick := by decide

/-- A run of three steps; a schedule whose every second event is a `Tick`, and the free one. -/
theorem witness_RunsFollowTheSchedule :
    (∃ t, Sys2Proof.core.run 3 { halted with schedule := ⟨[.tick], .cycle .step [.tick]⟩ } = .next t ∧
      t.nextEvent = .step) ∧
      Schedule.event ⟨[], .cycle .step [.tick]⟩ 7 = .tick ∧ Schedule.event ⟨[.tick], .free 5⟩ 3 = Config.freeEvent 7 :=
  ⟨⟨_, rfl, rfl⟩, rfl, rfl⟩

theorem witness_SetKeysReplacesTheFlags :
    ({ halted with schedule := .listing [.setKeys 0xFFFF] } : State).nextEvent = .setKeys 0xFFFF := rfl

/-- The largest image and the smallest that is refused. -/
theorem witness_ResetLoadsFontAndImage :
    ({ halted with schedule := .listing [.reset (List.replicate 3584 1)] } : State).nextEvent = .reset (List.replicate 3584 1) ∧
      (List.replicate 3584 (1 : Byte)).length ≤ 3584 :=
  ⟨rfl, by rw [List.length_replicate]⟩

theorem witness_OversizedImageIsRefused :
    ({ halted with schedule := .listing [.reset (List.replicate 3585 1)] } : State).nextEvent = .reset (List.replicate 3585 1) ∧
      3584 < (List.replicate 3585 (1 : Byte)).length :=
  ⟨rfl, by rw [List.length_replicate]; decide⟩

/-- A state with the invariant whose stack and memory are not empty, and its next state. -/
theorem witness_StepKeepsInvariant :
    ∃ s t : State, s.Inv ∧ step s = .next t ∧ s.sp.val = 1 ∧ s.mem ≠ [] := by
  refine ⟨{ loaded [0x2300] with sp := 1, stack := State.reset.stack.set 0 0x202 (by decide) }, _,
    ⟨rfl, ?_, ⟨by decide, fun x h => Mode.noConfusion h⟩, rfl⟩, rfl, rfl, by decide⟩
  intro k hk
  have h0 : k = 0 := by
    apply Fin.ext
    have hk : k.val < 1 := hk
    show k.val = 0
    omega
  subst h0
  decide

theorem witness_StepKeepsMemoryCanonical :
    ∃ t, ({ loaded [0xF055] with i := 0x300 }.setV 0 7).memOk ∧ step ({ loaded [0xF055] with i := 0x300 }.setV 0 7) = .next t :=
  ⟨_, rfl, rfl⟩

/-- No rows and an I beyond memory; a last row in the last byte. -/
theorem witness_DrawXorsTheSprite :
    ((0 : Nibble) = 0 ∨ ({ State.reset with i := 0xFFFF } : State).i.toNat + ((0 : Nibble).toNat - 1) ≤ 0xFFF) ∧
      ((15 : Nibble) = 0 ∨ ({ State.reset with i := 0xFF1 } : State).i.toNat + ((15 : Nibble).toNat - 1) ≤ 0xFFF) := by
  decide

/-- A place the first draw leaves where it was, though x is VF: VF is 0 and there is no collision. -/
theorem witness_DrawingTwiceRestoresTheBitmap :
    ((1 : Nibble) = 0 ∨ State.reset.i.toNat + ((1 : Nibble).toNat - 1) ≤ 0xFFF) ∧
      got (exec (.draw 15 0 1) State.reset) (fun t => (t.getV 15, t.getV 0)) =
        some (State.reset.getV 15, State.reset.getV 0) := by decide

theorem witness_BcdStoresThreeDigits : ({ State.reset with i := 0xFFD } : State).i.toNat + 2 ≤ 0xFFF := by decide

theorem witness_BlockStoreWritesV0ToVx :
    ({ State.reset with i := 0xFF0 } : State).i.toNat + (15 : RegIdx).toNat ≤ 0xFFF := by decide

theorem witness_BlockLoadReadsV0ToVx :
    ({ State.reset with i := 0xFFF } : State).i.toNat + (0 : RegIdx).toNat ≤ 0xFFF := by decide

/-- Every clause at its boundary. -/
theorem witness_OutOfBoundsHasTwoSites :
    (State.reset.nextEvent = .step ∧ State.reset.mode = .running ∧ 0xFFF ≤ (0xFFF#16).toNat) ∧
      (1 ≤ (2 : Nibble).toNat ∧ 0xFFF < ({ State.reset with i := 0xFFF } : State).i.toNat + (2 : Nibble).toNat - 1) ∧
      0xFFF < ({ State.reset with i := 0xFFE } : State).i.toNat + 2 ∧
      0xFFF < ({ State.reset with i := 0x1000 } : State).i.toNat + (0 : RegIdx).toNat := by decide

theorem witness_StoredWordIsFetchedNext :
    ∃ s : State, s.mode = .running ∧ s.nextEvent = .step ∧ s.i.toNat = s.pc.toNat + 2 ∧ s.pc.toNat % 2 = 0 ∧
      1 ≤ (1 : RegIdx).toNat ∧ s.i.toNat + (1 : RegIdx).toNat ≤ 0xFFF ∧
      decode (s.getV 0 ++ s.getV 1) = .ok (.jp 0x20A) :=
  ⟨{ State.reset with pc := 0x206, i := 0x208 }.setV 0 0x12 |>.setV 1 0x0A, by decide⟩

theorem witness_LoadIWritesTheAddress : (0xA300 : Word) &&& 0xF000 = 0xA000 ∧ fieldNNN 0xA300 = 0x300 := by decide

theorem witness_TimerInstructionsMoveBytes :
    ((0xF407 : Word) &&& 0xF0FF = 0xF007 ∧ fieldX 0xF407 = 4) ∧ ((0xFF15 : Word) &&& 0xF0FF = 0xF015 ∧ fieldX 0xFF15 = 15) ∧
      ((0xF018 : Word) &&& 0xF0FF = 0xF018 ∧ fieldX 0xF018 = 0) ∧ ∃ t, exec (.ldStVx 3) State.reset = .next t :=
  ⟨by decide, by decide, by decide, _, rfl⟩

/-- The largest odd target in bounds, the one target out of bounds, and a jump to itself. -/
theorem witness_JumpGoesToItsTarget :
    (∃ t, exec (.jp 0xFFD) State.reset = .next t ∧ t.nextEvent = .step ∧ t.mode = .running) ∧
      ((0xFFD : Addr12).toNat % 2 = 1 ∧ (0xFFD : Addr12).toNat < 0xFFF) ∧ (0xFFF : Addr12).toNat = 0xFFF ∧
      State.reset.pc.toNat = (0x200 : Addr12).toNat :=
  ⟨⟨_, rfl, rfl, rfl⟩, by decide, by decide, by decide⟩

theorem witness_WaitKeyEntersTheWait :
    ∃ t, exec (.waitKey 3) { State.reset with keys := 0x80 } = .next t ∧ t.nextEvent = .step := ⟨_, rfl, rfl⟩

theorem witness_CallPushesTheReturnAddress : ({ State.reset with sp := 15 } : State).sp.val < 16 := by decide

theorem witness_RetPopsTheReturnAddress :
    ({ State.reset with sp := 16 } : State).sp.val = (15 : Fin 16).val + 1 ∧
      ({ State.reset with sp := 1 } : State).sp.val = (0 : Fin 16).val + 1 := by decide

theorem witness_StackFaultsAtTheLimits :
    ({ State.reset with sp := 16 } : State).sp.val = 16 ∧ State.reset.sp.val = 0 ∧
      ({ State.reset with sp := 15 } : State).sp.val = 15 := by decide

theorem witness_CallsAndReturnsAreSymmetric :
    List.replicate 16 (0x300 : Addr12) ≠ [] ∧ State.reset.mode = .running ∧
      State.reset.sp.val + (List.replicate 16 (0x300 : Addr12)).length ≤ 16 := by decide

theorem witness_SelfJumpChangesNothing :
    (loaded [0x1200]).finished = true ∧ (loaded [0x1200]).nextEvent = .step := by decide

theorem witness_EachElementHasItsWriters : ∃ t, exec (.ldI 0x300) State.reset = .next t ∧ t.i ≠ State.reset.i :=
  ⟨_, rfl, by decide⟩

theorem witness_OnlyDestinationsAndFlagsAreWritten :
    (∃ t, exec (.readM 14) State.reset = .next t) ∧ ¬ mayWriteReg (.readM 14) 15 ∧ ¬ mayWriteReg (.addReg 1 2) 2 :=
  ⟨⟨_, rfl⟩, by simp only [mayWriteReg]; decide, by simp only [mayWriteReg]; decide⟩

theorem witness_FlagIsZeroOrOne :
    ∃ t, State.reset.mode = .running ∧ exec (.draw 15 15 0) State.reset = .next t ∧ t.mode ≠ .halted :=
  ⟨_, rfl, rfl, by decide⟩

theorem witness_KeyPrevIsIrrelevantWhileRunning :
    ∃ t, (loaded [0xF30A]).mode = .running ∧ step (loaded [0xF30A]) = .next t := ⟨_, rfl, rfl⟩

theorem witness_DeadStackEntriesAreUnobservable :
    ∃ s' t : State, s' = { loaded [0x2300] with stack := s'.stack } ∧ s'.stack ≠ (loaded [0x2300]).stack ∧
      (∀ k : Fin 16, k.val < (loaded [0x2300]).sp.val →
        s'.stack[k.val]'(k.isLt) = (loaded [0x2300]).stack[k.val]'(k.isLt)) ∧ step (loaded [0x2300]) = .next t :=
  ⟨{ loaded [0x2300] with stack := Vector.replicate 16 7 }, _, rfl, by decide,
    fun _ h => absurd h (Nat.not_lt_zero _), rfl⟩

/-- Also from a halted state whose PC is odd. -/
theorem witness_PlacedWordRunsNext :
    decodeTableWord 16 0xF465 = some (.readM 4) ∧
      got (step (({ halted with pc := 0x201 } : State).withFetchWord 16 0x63AB)) (fun t => (t.getV 3, t.pc)) =
        some (0xAB, 0x202) := by decide

end Sys2Proof.Tests
end

section
/-! What a `Step` in `Running` mode does when the fetched word does not decode (spec/40_step.md R93). -/

namespace Sys2Proof.Machine

/-- A fetchable word that does not decode raises `UnknownOpcode` with the word in the record (40_step.md R93). -/
theorem stepRunning_of_decode_error {s : State} {e : DecodeError} (h1 : s.pc.toNat + 1 ≤ 0xFFF)
    (h2 : s.pc.toNat % 2 = 0) (hd : decode (s.wordAt s.pc.toNat) = .error e) :
    stepRunning s = .next (s.raise .unknownOpcode (s.wordAt s.pc.toNat) 0) := by
  have hp : ¬ s.pc.getLsbD 0 = true := by rw [getLsbD_zero_iff]; omega
  rw [stepRunning, if_pos ((inBounds_iff _ _).mpr h1), if_neg hp, hd]

/-- Settles O9: past both fetch checks, the decoder's error leads to `raise` with the fetched word, and `raise` enters the
fault and writes nothing else. -/
theorem unknownWordsHalt : Obligations.UnknownWordsHalt := by
  rintro s _ hstep hrun hbound heven rfl hd
  have hraise : step s = .next (s.popEvent.raise .unknownOpcode (s.wordAt s.pc.toNat) 0) :=
    (step_eq_stepRunning hstep hrun).trans (stepRunning_of_decode_error (s := s.popEvent) hbound heven hd)
  exact ⟨_, hraise, faultEntered_raise ..⟩

end Sys2Proof.Machine
end

section
/-! `CLS` (spec/43_display.md R140): which word decodes to it, and that the surface is clear after it and after `Reset`. -/

namespace Sys2Proof

/-! ### No family of words holds `CLS` (spec/30_encoding.md R74) -/

theorem decodeArith_ne_cls (w : Word) : decodeArith w ≠ .ok .cls := by
  unfold decodeArith; split <;> simp

theorem decodeKeys_ne_cls (w : Word) : decodeKeys w ≠ .ok .cls := by
  unfold decodeKeys; split <;> simp

theorem decodeMisc_ne_cls (w : Word) : decodeMisc w ≠ .ok .cls := by
  unfold decodeMisc; split <;> simp

theorem decodeByOp_ne_cls (w : Word) : decodeByOp w ≠ .ok .cls := by
  unfold decodeByOp; split <;> simp [decodeArith_ne_cls, decodeKeys_ne_cls, decodeMisc_ne_cls]

/-- `CLS` is one of the two exact words that the decoder looks at first (spec/30_encoding.md R74). -/
theorem decode_eq_cls_iff (w : Word) : decode w = .ok .cls ↔ w = 0x00E0 := by
  rw [decode]
  split
  case isTrue hcls => exact iff_of_true rfl hcls
  case isFalse hcls =>
    refine iff_of_false ?_ hcls
    split
    case isTrue => nofun
    case isFalse => exact decodeByOp_ne_cls w

end Sys2Proof

namespace Sys2Proof.Machine

@[simp] theorem exec_cls (s : State) : exec .cls s = .next { s with fb := Bitmap.clear }.advance := rfl

/-- The surface that `Reset` leaves is the one that `CLS` leaves; loading the image does not touch it. -/
@[simp] theorem State.pixel_boot (s : State) (image : List Byte) (row : Fin 32) (col : Fin 64) :
    (s.boot image).pixel row col = false :=
  Bitmap.get_clear row col

/-- Settles O34: the decoder reaches `CLS` by its exact word alone, and `CLS` replaces FB by the clear surface, then
advances PC. -/
theorem clsClearsOnlyTheBitmap : Obligations.ClsClearsOnlyTheBitmap :=
  ⟨decode_eq_cls_iff, fun s => s.pixel_boot, fun s =>
    ⟨_, exec_cls s, Bitmap.get_clear, rfl, .of_eq rfl, .of_eq rfl rfl⟩⟩

end Sys2Proof.Machine
end

section
/-! `LD I, nnn` (spec/44_index_memory.md R150): which words decode to it, and what it writes. -/

namespace Sys2Proof

/-! ### A decoded word and the word of its instruction have the same opcode nibble (spec/30_encoding.md R74, R76) -/

theorem fieldOp_encode_of_decodeArith {w : Word} {i : Instr} (h : decodeArith w = .ok i) : fieldOp (encode i) = 0x8#4 := by
  unfold decodeArith at h
  split at h <;> cases h <;> exact fieldOp_formatXYN ..

theorem fieldOp_encode_of_decodeKeys {w : Word} {i : Instr} (h : decodeKeys w = .ok i) : fieldOp (encode i) = 0xE#4 := by
  unfold decodeKeys at h
  split at h <;> cases h <;> exact fieldOp_formatXKK ..

theorem fieldOp_encode_of_decodeMisc {w : Word} {i : Instr} (h : decodeMisc w = .ok i) : fieldOp (encode i) = 0xF#4 := by
  unfold decodeMisc at h
  split at h <;> cases h <;> exact fieldOp_formatXKK ..

theorem fieldOp_encode_of_decodeByOp {w : Word} {i : Instr} (h : decodeByOp w = .ok i) :
    fieldOp (encode i) = fieldOp w := by
  unfold decodeByOp at h
  split at h
  case h_8 hop => exact (fieldOp_encode_of_decodeArith h).trans hop.symm
  case h_14 hop => exact (fieldOp_encode_of_decodeKeys h).trans hop.symm
  case h_15 hop => exact (fieldOp_encode_of_decodeMisc h).trans hop.symm
  all_goals cases h
  all_goals simp [encode, *]

theorem fieldOp_encode_of_decode {w : Word} {i : Instr} (h : decode w = .ok i) : fieldOp (encode i) = fieldOp w := by
  rw [decode] at h
  split at h
  case isTrue hcls => cases h; rw [hcls]; rfl
  case isFalse =>
    split at h
    case isTrue hret => cases h; rw [hret]; rfl
    case isFalse => exact fieldOp_encode_of_decodeByOp h

/-- The opcode mask 0xF000 reads the opcode nibble (spec/30_encoding.md R76). -/
theorem and_opMask_eq_iff (w : Word) (op : Nibble) : w &&& 0xF000#16 = formatNNN op 0 ↔ fieldOp w = op := by
  rw [eq_formatNNN w, formatNNN_and_op, fieldOp_formatNNN]
  exact ⟨fun h => by simpa using congrArg fieldOp h, fun h => by rw [h]⟩

/-- `LD I, nnn` is the whole family of its opcode nibble: the address is free. -/
theorem decode_eq_ldI_iff (w : Word) (nnn : Addr12) :
    decode w = .ok (.ldI nnn) ↔ fieldOp w = 0xA#4 ∧ fieldNNN w = nnn := by
  have hdec (hop : fieldOp w = 0xA#4) : decode w = .ok (.ldI (fieldNNN w)) := by
    rw [decode_of_op (by rw [hop]; decide), decodeByOp, hop]
    rfl
  constructor
  · intro h
    have hop : fieldOp w = 0xA#4 := (fieldOp_encode_of_decode h).symm.trans (fieldOp_formatNNN ..)
    exact ⟨hop, by simpa [h, eq_comm] using hdec hop⟩
  · rintro ⟨hop, rfl⟩
    exact hdec hop

end Sys2Proof

namespace Sys2Proof.Machine

@[simp] theorem exec_ldI (nnn : Addr12) (s : State) : exec (.ldI nnn) s = .next (s.setI (wordOfAddr nnn)).advance := rfl

/-- Settles O37: the words are those of the opcode nibble A, and `LD I, nnn` zero-extends the address into I, then advances
PC. -/
theorem loadIWritesTheAddress : Obligations.LoadIWritesTheAddress := fun nnn =>
  ⟨fun w => (decode_eq_ldI_iff w nnn).trans (and_congr_left' (and_opMask_eq_iff w 0xA#4).symm), fun s =>
    ⟨_, exec_ldI nnn s, toNat_wordOfAddr nnn, rfl, .of_eq rfl, .of_eq rfl rfl, .of_eq rfl⟩⟩

end Sys2Proof.Machine
end

section
/-! `SetKeys` (spec/45_timers_keys.md R167). -/

namespace Sys2Proof.Machine

/-- Settles O19: in every mode the event answers `setKeys` of the popped state, which writes KEYS alone. -/
theorem setKeysReplacesTheFlags : Obligations.SetKeysReplacesTheFlags :=
  fun _ _ h => ⟨_, step_eq_setKeys h, fun _ => rfl, rfl⟩

end Sys2Proof.Machine
end

section
/-! The timer instructions (spec/45_timers_keys.md R160 to R162): which words decode to them, what they write, and that no
instruction reads ST. -/

namespace Sys2Proof

/-! ### The F family holds no ignored bit (spec/30_encoding.md R74, R76) -/

/-- The mask 0xF0FF and the first register index together fix a word. -/
theorem eq_formatXKK_iff (w : Word) (op : Nibble) (x : RegIdx) (kk : Byte) :
    w = formatXKK op x kk ↔ w &&& 0xF0FF#16 = formatXKK op 0 kk ∧ fieldX w = x := by
  constructor
  · rintro rfl
    exact ⟨formatXKK_and_low .., fieldX_formatXKK ..⟩
  · rintro ⟨hmask, rfl⟩
    have hlow : formatXKK (fieldOp w) 0 (fieldKK w) = formatXKK op 0 kk := by
      rw [← hmask, ← formatXKK_and_low _ (fieldX w), ← eq_formatXKK]
    have hop : fieldOp w = op := by simpa using congrArg fieldOp hlow
    have hkk : fieldKK w = kk := by simpa using congrArg fieldKK hlow
    rw [← hop, ← hkk, ← eq_formatXKK]

theorem decode_of_fieldOp_misc {w : Word} (hop : fieldOp w = 0xF#4) : decode w = decodeMisc w := by
  rw [decode_of_op (by rw [hop]; decide), decodeByOp, hop]
  rfl

theorem encode_of_decodeMisc {w : Word} {i : Instr} (hop : fieldOp w = 0xF#4) (h : decodeMisc w = .ok i) :
    encode i = w := by
  rw [eq_formatXKK w, hop]
  unfold decodeMisc at h
  split at h <;> cases h <;> simp [encode, *]

/-- An instruction of the F family has one word for each register index. -/
theorem decode_eq_misc_iff {i : Instr} {x : RegIdx} {kk : Byte} (w : Word) (henc : encode i = formatXKK 0xF#4 x kk)
    (hdec : decodeMisc (formatXKK 0xF#4 x kk) = .ok i) :
    decode w = .ok i ↔ w &&& 0xF0FF#16 = formatXKK 0xF#4 0 kk ∧ fieldX w = x := by
  rw [← eq_formatXKK_iff]
  constructor
  · intro h
    have hop : fieldOp w = 0xF#4 := by rw [← fieldOp_encode_of_decode h, henc, fieldOp_formatXKK]
    rw [← encode_of_decodeMisc hop (decode_of_fieldOp_misc hop ▸ h), henc]
  · rintro rfl
    rw [decode_of_fieldOp_misc (fieldOp_formatXKK ..), hdec]

theorem decode_eq_ldVxDt_iff (w : Word) (x : RegIdx) :
    decode w = .ok (.ldVxDt x) ↔ w &&& 0xF0FF#16 = 0xF007#16 ∧ fieldX w = x :=
  decode_eq_misc_iff (i := .ldVxDt x) (kk := 0x07#8) w rfl (by simp [decodeMisc])

theorem decode_eq_ldDtVx_iff (w : Word) (x : RegIdx) :
    decode w = .ok (.ldDtVx x) ↔ w &&& 0xF0FF#16 = 0xF015#16 ∧ fieldX w = x :=
  decode_eq_misc_iff (i := .ldDtVx x) (kk := 0x15#8) w rfl (by simp [decodeMisc])

theorem decode_eq_ldStVx_iff (w : Word) (x : RegIdx) :
    decode w = .ok (.ldStVx x) ↔ w &&& 0xF0FF#16 = 0xF018#16 ∧ fieldX w = x :=
  decode_eq_misc_iff (i := .ldStVx x) (kk := 0x18#8) w rfl (by simp [decodeMisc])

end Sys2Proof

namespace Sys2Proof.Machine

@[simp] theorem exec_ldVxDt (x : RegIdx) (s : State) : exec (.ldVxDt x) s = .next (s.setV x s.dt).advance := rfl

@[simp] theorem exec_ldDtVx (x : RegIdx) (s : State) :
    exec (.ldDtVx x) s = .next { s with dt := s.getV x }.advance := rfl

@[simp] theorem exec_ldStVx (x : RegIdx) (s : State) :
    exec (.ldStVx x) s = .next { s with st := s.getV x }.advance := rfl

/-- The tone sounds while ST is not zero (spec/60_exceptions.md R198). -/
theorem State.soundActive_iff (s : State) : s.soundActive = true ↔ s.st ≠ 0 := by
  rw [State.soundActive, decide_eq_true_iff, Nat.pos_iff_ne_zero]
  exact not_congr (BitVec.toNat_inj (y := 0#8))

/-! ### No instruction reads ST -/

/-- `ST <- b`: the state that a run is compared with. -/
def State.setSt (s : State) (b : Byte) : State := { s with st := b }

theorem State.skipIf_setSt (s : State) (b : Byte) (c : Bool) : (s.setSt b).skipIf c = (s.skipIf c).setSt b := by
  cases c <;> rfl

theorem State.blitSprite_setSt (s : State) (b : Byte) (x y : RegIdx) (n : Nibble) :
    (s.setSt b).blitSprite x y n = s.blitSprite x y n :=
  State.blitSprite_congr (s := s) (t := s.setSt b) rfl rfl rfl rfl rfl x y n

/-- A meaning with a check that both states pass or both fail. -/
theorem next_ite_setSt {c : Prop} [Decidable c] {u v t : State} (b : Byte)
    (h : (if c then .next u else .next v : Outcome) = .next t) :
    (if c then .next (u.setSt b) else .next (v.setSt b) : Outcome) = .next (t.setSt b) := by
  split at h <;> cases h <;> simp [*]

/-- From another ST an instruction gives the same next state, with ST overwritten (`LD ST, Vx`) or kept. -/
theorem exec_setSt {i : Instr} {s t : State} (h : exec i s = .next t) (b : Byte) :
    exec i (s.setSt b) = .next t ∨ exec i (s.setSt b) = .next (t.setSt b) := by
  cases i
  all_goals unfold exec at h ⊢; dsimp only at h ⊢
  case ldStVx x => cases h; exact .inl rfl
  case movBcd | writeM | readM => exact .inr (next_ite_setSt b h)
  case draw => rw [execDraw, State.blitSprite_setSt]; exact .inr (next_ite_setSt b h)
  case call nnn =>
    right
    by_cases hb : s.sp.val < 16
    · rw [execCall_ok _ hb] at h; cases h; exact execCall_ok (s := s.setSt b) _ hb
    · have hb : s.sp.val = 16 := by omega
      rw [execCall_fault _ hb] at h; cases h; exact execCall_fault (s := s.setSt b) _ hb
  case ret =>
    right
    rcases Nat.eq_zero_or_pos s.sp.val with hb | hb
    · rw [execRet_fault hb] at h; cases h; exact execRet_fault (s := s.setSt b) hb
    · rw [execRet_ok hb] at h; cases h; exact execRet_ok (s := s.setSt b) hb
  case seImm | sneImm | seReg | sneReg | skipKey | skipNoKey =>
    cases h; exact .inr (congrArg _ (State.skipIf_setSt ..))
  all_goals cases h; exact .inr rfl

/-- Settles O44: the three words are of the F family, each instruction is one write and the advance of PC, and a run from
another ST differs in ST alone. -/
theorem timerInstructionsMoveBytes : Obligations.TimerInstructionsMoveBytes := by
  refine ⟨fun w x => ⟨decode_eq_ldVxDt_iff w x, decode_eq_ldDtVx_iff w x, decode_eq_ldStVx_iff w x⟩,
    fun x s => ⟨⟨_, exec_ldVxDt x s, ?_, regsKept_setV s x s.dt, onlyRegs_setV s x s.dt⟩,
      ⟨_, exec_ldDtVx x s, rfl, .of_eq rfl, .of_eq rfl rfl, .of_eq rfl⟩,
      ⟨_, exec_ldStVx x s, rfl, State.soundActive_iff _, .of_eq rfl, .of_eq rfl rfl, .of_eq rfl⟩⟩,
    fun i s t b h => ?_⟩
  · simp
  · obtain hsame | hkept := exec_setSt h b
    · exact ⟨t, hsame, rfl⟩
    · exact ⟨t.setSt b, hkept, rfl⟩

end Sys2Proof.Machine
end

section
/-! `JP nnn` (spec/46_flow.md R170): which words decode to it, what it writes, and the fetch that meets a bad target. -/

namespace Sys2Proof

/-- An instruction that is the whole family of its opcode nibble, the address being free (spec/30_encoding.md R74, R76). -/
theorem decode_eq_nnn_iff {f : Addr12 → Instr} {op : Nibble} (henc : ∀ nnn, encode (f nnn) = formatNNN op nnn)
    (hdec : ∀ w, fieldOp w = op → decode w = .ok (f (fieldNNN w))) (w : Word) (nnn : Addr12) :
    decode w = .ok (f nnn) ↔ fieldOp w = op ∧ fieldNNN w = nnn := by
  constructor
  · intro h
    have hop : fieldOp w = op := by rw [← fieldOp_encode_of_decode h, henc, fieldOp_formatNNN]
    have hsame : f (fieldNNN w) = f nnn := Except.ok.inj ((hdec w hop).symm.trans h)
    have hnnn : formatNNN op (fieldNNN w) = formatNNN op nnn := by rw [← henc, ← henc, hsame]
    exact ⟨hop, by simpa using congrArg fieldNNN hnnn⟩
  · rintro ⟨hop, rfl⟩
    exact hdec w hop

theorem decode_of_fieldOp_jp {w : Word} (hop : fieldOp w = 0x1#4) : decode w = .ok (.jp (fieldNNN w)) := by
  rw [decode_of_op (by rw [hop]; decide), decodeByOp, hop]
  rfl

theorem decode_eq_jp_iff (w : Word) (nnn : Addr12) :
    decode w = .ok (.jp nnn) ↔ fieldOp w = 0x1#4 ∧ fieldNNN w = nnn :=
  decode_eq_nnn_iff (f := .jp) (fun _ => rfl) (fun _ => decode_of_fieldOp_jp) w nnn

end Sys2Proof

namespace Sys2Proof.Machine

/-! ### A write of PC alone -/

@[simp] theorem exec_jp (nnn : Addr12) (s : State) : exec (.jp nnn) s = .next (s.setPc (wordOfAddr nnn)) := rfl

theorem onlyPc_setPc (s : State) (a : Word) : OnlyPc s (s.setPc a) := ⟨rfl, .of_eq rfl, .of_eq rfl rfl, .of_eq rfl⟩

@[simp] theorem State.setPc_self (s : State) : s.setPc s.pc = s := rfl

/-! ### The two fetch checks that fail (spec/40_step.md R92) -/

theorem stepRunning_of_pc_out_of_bounds {s : State} (h : 0xFFF < s.pc.toNat + 1) :
    stepRunning s = .next (s.raise .outOfBounds 0 s.pc) := by
  have hb : ¬ inBounds s.pc.toNat 1 = true := by rw [inBounds_iff]; omega
  rw [stepRunning, if_neg hb]

theorem stepRunning_of_pc_odd {s : State} (hbound : s.pc.toNat + 1 ≤ 0xFFF) (hodd : s.pc.toNat % 2 = 1) :
    stepRunning s = .next (s.raise .misalignedPC 0 s.pc) := by
  rw [stepRunning, if_pos ((inBounds_iff _ _).mpr hbound), if_pos ((getLsbD_zero_iff _).mpr hodd)]

/-- Settles O46: the words are those of the opcode nibble 1, and `JP nnn` is the write of PC alone, which does nothing where
PC is the target; the next fetch checks the target and raises with it as PC. -/
theorem jumpGoesToItsTarget : Obligations.JumpGoesToItsTarget := by
  refine fun nnn => ⟨fun w => (decode_eq_jp_iff w nnn).trans (and_congr_left' (and_opMask_eq_iff w 0x1#4).symm), fun s => ?_⟩
  have htarget : (s.setPc (wordOfAddr nnn)).popEvent.pc.toNat = nnn.toNat := toNat_wordOfAddr nnn
  refine ⟨_, exec_jp nnn s, htarget, onlyPc_setPc s _, fun hself => ?_, fun hstep hrun =>
    ⟨fun hodd hbound => ?_, fun htop => ?_⟩⟩
  · have hpc : wordOfAddr nnn = s.pc := BitVec.eq_of_toNat_eq (htarget.trans hself.symm)
    rw [hpc, State.setPc_self]
  · exact ⟨_, (step_eq_stepRunning hstep hrun).trans (stepRunning_of_pc_odd (by omega) (by omega)),
      faultEntered_raise .., htarget⟩
  · exact ⟨_, (step_eq_stepRunning hstep hrun).trans (stepRunning_of_pc_out_of_bounds (by omega)),
      faultEntered_raise .., htarget⟩

end Sys2Proof.Machine
end

section
/-! The entry of a fault (spec/60_exceptions.md R186): a `Step` in `Running` mode that ends in `Halted` went through `raise`. -/

namespace Sys2Proof.Machine

/-- An instruction enters `Halted` through `raise` alone: every other outcome keeps the mode or waits for a key. -/
theorem exec_halted_eq_raise {i : Instr} {s t : State} (h : exec i s = .next t) (hs : s.mode ≠ .halted)
    (ht : t.mode = .halted) : ∃ k w a, k ≠ .none ∧ t = s.raise k w a := by
  obtain hraise | ⟨hmode, -⟩ | ⟨hmode, -⟩ | ⟨hmode, -⟩ | ⟨x, hmode, -⟩ := exec_cases h
  · exact hraise
  · exact absurd (hmode.symm.trans ht) hs
  · exact absurd (hmode.symm.trans ht) hs
  · exact absurd (hmode.symm.trans ht) hs
  · cases hmode.symm.trans ht

/-- So does a whole step in `Running` mode: the fetch checks and the decoder's error are `raise` as well. -/
theorem stepRunning_halted_eq_raise {s t : State} (h : stepRunning s = .next t) (hs : s.mode ≠ .halted)
    (ht : t.mode = .halted) : ∃ k w a, k ≠ .none ∧ t = s.raise k w a := by
  obtain ⟨-, hstep⟩ | ⟨-, -, hstep⟩ | ⟨-, -, -, hstep⟩ | ⟨-, -, i, -, hstep⟩ := stepRunning_cases s
  case inr.inr.inr => exact exec_halted_eq_raise (hstep.symm.trans h) hs ht
  all_goals
    cases hstep.symm.trans h
    exact ⟨_, _, _, by decide, rfl⟩

/-- Settles O13: the `Step` went through `raise` on the popped state, which enters the fault and writes nothing else. -/
theorem faultsWriteOnlyModeAndFault : Obligations.FaultsWriteOnlyModeAndFault := by
  intro s t hevent hrun hstep hhalted
  have hpop : s.popEvent.mode ≠ .halted := by simp [hrun]
  obtain ⟨kind, opcode, addr, hkind, rfl⟩ :=
    stepRunning_halted_eq_raise ((step_eq_stepRunning hevent hrun).symm.trans hstep) hpop hhalted
  exact ⟨kind, opcode, addr, hkind, faultEntered_raise ..⟩

end Sys2Proof.Machine
end

section
/-! Decoding and encoding agree (spec/30_encoding.md R70 to R80): the instruction from its word, the word from its
instruction, the words that are no instruction, and the rows of the opcode map that a word selects. -/

namespace Sys2Proof

open Sys2Proof.Machine

/-! ### From the instruction to its word and back -/

theorem decode_of_fieldOp_arith {w : Word} (hop : fieldOp w = 0x8#4) : decode w = decodeArith w := by
  rw [decode_of_op (by rw [hop]; decide), decodeByOp, hop]
  rfl

theorem decode_of_fieldOp_keys {w : Word} (hop : fieldOp w = 0xE#4) : decode w = decodeKeys w := by
  rw [decode_of_op (by rw [hop]; decide), decodeByOp, hop]
  rfl

/-- The decoder undoes the encoder: the fields of each format are read where they were written. -/
theorem decode_encode (i : Instr) : decode (encode i) = .ok i := by
  cases i
  case cls | ret => rfl
  case ldReg | orReg | andReg | xorReg | addReg | sub | shr | subn | shl =>
    rw [encode, decode_of_fieldOp_arith (fieldOp_formatXYN ..)]
    simp [decodeArith]
  case skipKey | skipNoKey =>
    rw [encode, decode_of_fieldOp_keys (fieldOp_formatXKK ..)]
    simp [decodeKeys]
  case ldVxDt | waitKey | ldDtVx | ldStVx | addI | ldF | movBcd | writeM | readM =>
    rw [encode, decode_of_fieldOp_misc (fieldOp_formatXKK ..)]
    simp [decodeMisc]
  all_goals
    rw [encode, decode_of_op (by simp)]
    simp [decodeByOp]

/-- A list that begins with the two bytes of a word that decodes. -/
theorem decodeBytes_wordBytes {w : Word} {i : Instr} (h : decode w = .ok i) (rest : List Byte) :
    decodeBytes (wordBytes w ++ rest) = .ok (i, rest) := by
  rw [wordBytes, List.cons_append, List.cons_append, List.nil_append, decodeBytes, word_of_wordBytes, h]

/-- Settles O2: the fields of each format are read where the encoder writes them, and a word's two bytes put together are
the word. -/
theorem encodedInstructionsDecodeBack : Obligations.EncodedInstructionsDecodeBack := fun i rest =>
  ⟨decode_encode i, decodeBytes_wordBytes (decode_encode i) rest⟩

/-- Settles O1 by running the decoder on each word. -/
theorem handWrittenWordsDecode : Obligations.HandWrittenWordsDecode := by
  unfold Obligations.HandWrittenWordsDecode
  decide

/-! ### From the word to its instruction and back -/

/-- The mask 0xFFF0 clears the low nibble of the format XYN. -/
theorem formatXYN_and_high (op x y n : Nibble) : formatXYN op x y n &&& 0xFFF0#16 = formatXYN op x y 0 := by
  have h : 0xFFF0#16 = (BitVec.allOnes 4 ++ BitVec.allOnes 4 ++ BitVec.allOnes 4 ++ 0#4 : BitVec (4 + 4 + 4 + 4)) := rfl
  rw [formatXYN, h]
  exact BitVec.and_append.trans
    (by rw [BitVec.and_append, BitVec.and_append]; simp only [BitVec.and_allOnes, BitVec.and_zero]; rfl)

/-- What is left of a word in its instruction: all of it, but for the ignored nibble of `5xy_` and `9xy_` (R78). -/
def keptBits (i : Instr) (w : Word) : Word :=
  match i with
  | .seReg _ _ | .sneReg _ _ => w &&& 0xFFF0#16
  | _ => w

theorem encode_of_decodeArith {w : Word} {i : Instr} (hop : fieldOp w = 0x8#4) (h : decodeArith w = .ok i) :
    encode i = keptBits i w := by
  rw [eq_formatXYN w, hop]
  unfold decodeArith at h
  split at h <;> cases h <;> simp [encode, keptBits, *]

theorem encode_of_decodeKeys {w : Word} {i : Instr} (hop : fieldOp w = 0xE#4) (h : decodeKeys w = .ok i) :
    encode i = keptBits i w := by
  rw [eq_formatXKK w, hop]
  unfold decodeKeys at h
  split at h <;> cases h <;> simp [encode, keptBits, *]

theorem keptBits_of_decodeMisc {w : Word} {i : Instr} (h : decodeMisc w = .ok i) : keptBits i w = w := by
  unfold decodeMisc at h
  split at h <;> cases h <;> rfl

theorem encode_of_decodeByOp {w : Word} {i : Instr} (h : decodeByOp w = .ok i) : encode i = keptBits i w := by
  unfold decodeByOp at h
  split at h
  case h_8 hop => exact encode_of_decodeArith hop h
  case h_14 hop => exact encode_of_decodeKeys hop h
  case h_15 hop => exact (encode_of_decodeMisc hop h).trans (keptBits_of_decodeMisc h).symm
  case h_5 hop | h_9 hop =>
    cases h
    conv_rhs => rw [keptBits, eq_formatXYN w, formatXYN_and_high, hop]
    rfl
  case h_13 hop => cases h; exact ((eq_formatXYN w).trans (by rw [hop]; rfl)).symm
  case h_1 hop | h_2 hop | h_10 hop | h_11 hop => cases h; exact ((eq_formatNNN w).trans (by rw [hop]; rfl)).symm
  case h_16 => cases h
  all_goals cases h; exact ((eq_formatXKK w).trans (by simp only [*]; rfl)).symm

/-- The encoder undoes the decoder, but for the ignored nibble. -/
theorem encode_of_decode {w : Word} {i : Instr} (h : decode w = .ok i) : encode i = keptBits i w := by
  rw [decode] at h
  split at h
  case isTrue hcls => cases h; exact hcls.symm
  case isFalse =>
    split at h
    case isTrue hret => cases h; exact hret.symm
    case isFalse => exact encode_of_decodeByOp h

/-- Settles O3: the fields of a decoded word, written again in its format, are the word, but for the nibble that `5xy_` and
`9xy_` ignore. -/
theorem decodedWordsEncodeBack : Obligations.DecodedWordsEncodeBack := by
  intro w i h
  have henc := encode_of_decode h
  cases i <;> exact henc

/-! ### The words that are no instruction (spec/30_encoding.md R79) -/

theorem decodeArith_isOk (w : Word) : (decodeArith w).isOk = !illegalArith (fieldN w) := by
  unfold decodeArith
  split
  case h_10 =>
    have hrest : ∀ n : Nibble, n ∉ [0x0#4, 0x1#4, 0x2#4, 0x3#4, 0x4#4, 0x5#4, 0x6#4, 0x7#4, 0xE#4] →
        illegalArith n = true := by decide
    rw [hrest (fieldN w) (by simp_all)]; rfl
  all_goals simp only [*]; rfl

theorem decodeKeys_isOk (w : Word) : (decodeKeys w).isOk = legalE (fieldKK w) := by
  unfold decodeKeys
  split <;> simp_all [legalE, Except.isOk, Except.toBool]

theorem decodeMisc_isOk (w : Word) : (decodeMisc w).isOk = legalF (fieldKK w) := by
  unfold decodeMisc
  split <;> simp_all [legalF, Except.isOk, Except.toBool]

/-- `wordLegal` in the names of the fields. -/
theorem wordLegal_eq (w : Word) :
    wordLegal w = !((fieldOp w == 0x0 && w != 0x00E0 && w != 0x00EE) || (fieldOp w == 0x8 && illegalArith (fieldN w))
      || (fieldOp w == 0xE && !legalE (fieldKK w)) || (fieldOp w == 0xF && !legalF (fieldKK w))) := rfl

/-- `wordLegal`, family by family. -/
theorem wordLegal_iff (w : Word) :
    wordLegal w = true ↔ (fieldOp w = 0x0 → w = 0x00E0 ∨ w = 0x00EE) ∧
      (fieldOp w = 0x8 → illegalArith (fieldN w) = false) ∧ (fieldOp w = 0xE → legalE (fieldKK w) = true) ∧
      (fieldOp w = 0xF → legalF (fieldKK w) = true) := by
  rw [wordLegal_eq]
  simp [or_iff_not_imp_left, and_assoc]

theorem decodeByOp_isOk {w : Word} (hcls : w ≠ 0x00E0) (hret : w ≠ 0x00EE) : (decodeByOp w).isOk = wordLegal w := by
  rw [wordLegal_eq]
  unfold decodeByOp
  split
  case h_8 hop => simp [hop, decodeArith_isOk]
  case h_14 hop => simp [hop, decodeKeys_isOk]
  case h_15 hop => simp [hop, decodeMisc_isOk]
  case h_16 =>
    simp only [imp_false] at *
    have hzero : fieldOp w = 0 := by bv_omega
    have hcls : (w != 0x00E0) = true := bne_iff_ne.mpr hcls
    have hret : (w != 0x00EE) = true := bne_iff_ne.mpr hret
    rw [hzero, hcls, hret]; rfl
  all_goals simp [*, Except.isOk, Except.toBool]

/-- The decoder accepts exactly the words outside the four illegal spaces. -/
theorem decode_isOk (w : Word) : (decode w).isOk = wordLegal w := by
  rw [decode]
  split
  case isTrue hcls => rw [hcls]; rfl
  case isFalse hcls =>
    split
    case isTrue hret => rw [hret]; rfl
    case isFalse hret => exact decodeByOp_isOk hcls hret

theorem wordLegal_of_decode {w : Word} {i : Instr} (h : decode w = .ok i) : wordLegal w = true := by
  rw [← decode_isOk, h]; rfl

theorem wordLegal_of_decode_error {w : Word} {e : DecodeError} (h : decode w = .error e) : wordLegal w = false := by
  rw [← decode_isOk, h]; rfl

/-- Settles O5: the decoder's choice, nibble by nibble and byte by byte, is the table of R79. -/
theorem illegalWordsAreTheFourSpaces : Obligations.IllegalWordsAreTheFourSpaces := by
  intro w
  cases hd : decode w with
  | ok i => simp [wordLegal_of_decode hd]
  | error e => simp [wordLegal_of_decode_error hd, decode_error hd]

/-! ### The rows of the opcode map (spec/30_encoding.md R76) -/

/-- The row of an instruction is in the map, and the instruction's word selects it: the 34 lemmas of Laws/PerInstr. -/
theorem row_statement (i : Instr) : Laws.OpcodeMap.Statement i := by
  cases i
  case cls => exact Laws.OpcodeMap.cls
  case ret => exact Laws.OpcodeMap.ret
  case jp => exact Laws.OpcodeMap.jp _
  case call => exact Laws.OpcodeMap.call _
  case seImm => exact Laws.OpcodeMap.seImm _ _
  case sneImm => exact Laws.OpcodeMap.sneImm _ _
  case seReg => exact Laws.OpcodeMap.seReg _ _
  case ldImm => exact Laws.OpcodeMap.ldImm _ _
  case addImm => exact Laws.OpcodeMap.addImm _ _
  case ldReg => exact Laws.OpcodeMap.ldReg _ _
  case orReg => exact Laws.OpcodeMap.orReg _ _
  case andReg => exact Laws.OpcodeMap.andReg _ _
  case xorReg => exact Laws.OpcodeMap.xorReg _ _
  case addReg => exact Laws.OpcodeMap.addReg _ _
  case sub => exact Laws.OpcodeMap.sub _ _
  case shr => exact Laws.OpcodeMap.shr _ _
  case subn => exact Laws.OpcodeMap.subn _ _
  case shl => exact Laws.OpcodeMap.shl _ _
  case sneReg => exact Laws.OpcodeMap.sneReg _ _
  case ldI => exact Laws.OpcodeMap.ldI _
  case jpV0 => exact Laws.OpcodeMap.jpV0 _
  case rnd => exact Laws.OpcodeMap.rnd _ _
  case draw => exact Laws.OpcodeMap.draw _ _ _
  case skipKey => exact Laws.OpcodeMap.skipKey _
  case skipNoKey => exact Laws.OpcodeMap.skipNoKey _
  case ldVxDt => exact Laws.OpcodeMap.ldVxDt _
  case waitKey => exact Laws.OpcodeMap.waitKey _
  case ldDtVx => exact Laws.OpcodeMap.ldDtVx _
  case ldStVx => exact Laws.OpcodeMap.ldStVx _
  case addI => exact Laws.OpcodeMap.addI _
  case ldF => exact Laws.OpcodeMap.ldF _
  case movBcd => exact Laws.OpcodeMap.movBcd _
  case writeM => exact Laws.OpcodeMap.writeM _
  case readM => exact Laws.OpcodeMap.readM _

/-- The nibble that `5xy_` and `9xy_` ignore is not in the mask of their rows. -/
theorem row_selects_keptBits (i : Instr) (w : Word) : i.row.selects (keptBits i w) = i.row.selects w := by
  cases i
  case seReg | sneReg =>
    rw [keptBits, OpcodeRow.selects, OpcodeRow.selects, BitVec.and_assoc, Instr.row]
    rfl
  all_goals rfl

theorem row_selects_of_decode {w : Word} {i : Instr} (h : decode w = .ok i) : i.row.selects w = true := by
  rw [← row_selects_keptBits, ← encode_of_decode h]
  exact (row_statement i).2

/-- No word selects two rows: two patterns that agree where both masks look are of one row. -/
theorem opcodeTable_disjoint :
    ∀ r ∈ opcodeTable, ∀ q ∈ opcodeTable, r.pattern &&& q.mask = q.pattern &&& r.mask → r = q := by decide

theorem eq_of_selects {r q : OpcodeRow} (hr : r ∈ opcodeTable) (hq : q ∈ opcodeTable) {w : Word}
    (hrw : r.selects w = true) (hqw : q.selects w = true) : r = q := by
  have hrw : w &&& r.mask = r.pattern := beq_iff_eq.mp hrw
  have hqw : w &&& q.mask = q.pattern := beq_iff_eq.mp hqw
  refine opcodeTable_disjoint r hr q hq ?_
  rw [← hrw, ← hqw, BitVec.and_assoc, BitVec.and_assoc, BitVec.and_comm r.mask]

/-- A row looks at the whole opcode nibble; in the four families with illegal words it looks at all that tells them apart,
and its pattern is legal. -/
theorem opcodeTable_legal :
    ∀ r ∈ opcodeTable, fieldOp r.mask = BitVec.allOnes 4 ∧
      (fieldOp r.pattern = 0x0 → r.mask = BitVec.allOnes 16 ∧ (r.pattern = 0x00E0 ∨ r.pattern = 0x00EE)) ∧
      (fieldOp r.pattern = 0x8 → fieldN r.mask = BitVec.allOnes 4 ∧ illegalArith (fieldN r.pattern) = false) ∧
      (fieldOp r.pattern = 0xE → fieldKK r.mask = BitVec.allOnes 8 ∧ legalE (fieldKK r.pattern) = true) ∧
      (fieldOp r.pattern = 0xF → fieldKK r.mask = BitVec.allOnes 8 ∧ legalF (fieldKK r.pattern) = true) := by decide

/-- A field that the mask keeps is the pattern's. -/
theorem field_eq_of_and_eq {w m p : Word} (h : w &&& m = p) {start len : Nat}
    (hm : m.extractLsb' start len = BitVec.allOnes len) : w.extractLsb' start len = p.extractLsb' start len := by
  rw [← h, BitVec.extractLsb'_and, hm, BitVec.and_allOnes]

theorem wordLegal_of_selects {r : OpcodeRow} (hr : r ∈ opcodeTable) {w : Word} (h : r.selects w = true) :
    wordLegal w = true := by
  have h : w &&& r.mask = r.pattern := beq_iff_eq.mp h
  obtain ⟨hmask, h0, h8, hE, hF⟩ := opcodeTable_legal r hr
  have hop : fieldOp w = fieldOp r.pattern := field_eq_of_and_eq h hmask
  rw [wordLegal_iff, hop]
  refine ⟨fun e => ?_, fun e => ?_, fun e => ?_, fun e => ?_⟩
  · obtain ⟨hm, hp⟩ := h0 e
    rw [hm, BitVec.and_allOnes] at h
    rwa [h]
  · obtain ⟨hm, hp⟩ := h8 e
    rwa [show fieldN w = fieldN r.pattern from field_eq_of_and_eq h hm]
  · obtain ⟨hm, hp⟩ := hE e
    rwa [show fieldKK w = fieldKK r.pattern from field_eq_of_and_eq h hm]
  · obtain ⟨hm, hp⟩ := hF e
    rwa [show fieldKK w = fieldKK r.pattern from field_eq_of_and_eq h hm]

/-- Settles O4: a decoded word selects the row of its instruction, no two rows select one word, and a word that a row selects
is legal. -/
theorem eachWordSelectsOneRowOrNone : Obligations.EachWordSelectsOneRowOrNone := by
  intro w
  constructor
  · intro i hi
    have hrow : i.row ∈ opcodeTable := (row_statement i).1
    have hsel : i.row.selects w = true := row_selects_of_decode hi
    exact ⟨hrow, fun r hr => ⟨fun h => eq_of_selects hr hrow h hsel, fun h => h ▸ hsel⟩⟩
  · intro e he
    refine ⟨decode_error he, fun r hr => ?_⟩
    by_contra h
    have hlegal : wordLegal w = true := wordLegal_of_selects hr (Bool.eq_true_of_not_eq_false h)
    rw [wordLegal_of_decode_error he] at hlegal
    cases hlegal

end Sys2Proof
end

section
/-! What an instruction answers, said once: the fault it raises, or else the state it leaves; and from that, which elements
of the state it can write (spec/10_state.md, 60_exceptions.md R181). -/

namespace Sys2Proof.Machine

/-! ### The two outcomes of an instruction -/

/-- The kind and the address of the fault that an instruction raises, if it raises one: a stack at its limit, or an access
through I that leaves memory (60_exceptions.md R181 to R184). -/
def State.faultOf (s : State) (i : Instr) : Option (FaultKind × Word) :=
  match i with
  | .call _ => if s.sp.val = 16 then some (.stackOverflow, 0) else none
  | .ret => if s.sp.val = 0 then some (.stackUnderflow, 0) else none
  | i =>
    match accessReach i with
    | some m => if 0xFFF < s.i.toNat + m then some (.outOfBounds, s.i) else none
    | none => none

/-- The state that `CALL` leaves while fewer than 16 entries are held. -/
def State.called (s : State) (nnn : Addr12) (h : s.sp.val < 16) : State :=
  { s with stack := s.stack.set s.sp.val (s.pc + 2) h, sp := ⟨s.sp.val + 1, by omega⟩ }.setPc (wordOfAddr nnn)

/-- The state that `RET` leaves while an entry is held. -/
def State.returned (s : State) (h : 0 < s.sp.val) : State :=
  { s with sp := ⟨s.sp.val - 1, by omega⟩ }.setPc (s.stack[s.sp.val - 1]'(by omega))

/-- The state an instruction leaves when it raises no fault. -/
def State.after (s : State) (i : Instr) : State :=
  match i with
  | .cls => { s with fb := Bitmap.clear }.advance
  | .ret => { s with sp := Fin.ofNat 17 (s.sp.val - 1) }.setPc (s.stack.toList.getD (s.sp.val - 1) 0)
  | .jp nnn => s.setPc (wordOfAddr nnn)
  | .call nnn =>
    { s with
      stack := if h : s.sp.val < 16 then s.stack.set s.sp.val (s.pc + 2) h else s.stack
      sp := Fin.ofNat 17 (s.sp.val + 1) }.setPc (wordOfAddr nnn)
  | .seImm x kk => s.skipIf (s.getV x == kk)
  | .sneImm x kk => s.skipIf (s.getV x != kk)
  | .seReg x y => s.skipIf (s.getV x == s.getV y)
  | .ldImm x kk => (s.setV x kk).advance
  | .addImm x kk => (s.setV x (addFlag (s.getV x) kk).1).advance
  | .ldReg x y => (s.setV x (s.getV y)).advance
  | .orReg x y => (s.setV x (s.getV x ||| s.getV y)).advance
  | .andReg x y => (s.setV x (s.getV x &&& s.getV y)).advance
  | .xorReg x y => (s.setV x (s.getV x ^^^ s.getV y)).advance
  | .addReg x y => s.writeFlagged x (addFlag (s.getV x) (s.getV y))
  | .sub x y => s.writeFlagged x (subFlag (s.getV x) (s.getV y))
  | .shr x _ => s.writeFlagged x (shrFlag (s.getV x))
  | .subn x y => s.writeFlagged x (subFlag (s.getV y) (s.getV x))
  | .shl x _ => s.writeFlagged x (shlFlag (s.getV x))
  | .sneReg x y => s.skipIf (s.getV x != s.getV y)
  | .ldI nnn => (s.setI (wordOfAddr nnn)).advance
  | .jpV0 nnn => s.setPc (wordOfAddr nnn + s.wordOfV 0)
  | .rnd x kk => ({ s with draws := s.draws + 1 }.setV x (Config.draw8 s.draws &&& kk)).advance
  | .draw x y n => ({ s with fb := (s.blitSprite x y n).1 }.setV 15 (flagByte (s.blitSprite x y n).2)).advance
  | .skipKey x => s.skipIf (s.keyDown (s.lowNibble x))
  | .skipNoKey x => s.skipIf (!s.keyDown (s.lowNibble x))
  | .ldVxDt x => (s.setV x s.dt).advance
  | .waitKey x => { s with mode := .awaitingKey x, keyPrev := s.keys }
  | .ldDtVx x => { s with dt := s.getV x }.advance
  | .ldStVx x => { s with st := s.getV x }.advance
  | .addI x => (s.setI (s.i + s.wordOfV x)).advance
  | .ldF x => (s.setI (s.glyphAddr (s.lowNibble x))).advance
  | .movBcd x => (s.store s.i.toNat (bcdDigits (s.getV x))).advance
  | .writeM x => (s.store s.i.toNat (s.lowRegs x)).advance
  | .readM x => (s.loadRegs x s.i.toNat).advance

/-- An access through I faults exactly beyond 0xFFF. -/
theorem State.faultOf_of_accessReach {s : State} {i : Instr} {m : Nat} (h : accessReach i = some m) :
    s.faultOf i = if 0xFFF < s.i.toNat + m then some (.outOfBounds, s.i) else none := by
  cases i
  case draw | movBcd | writeM | readM => simp only [State.faultOf, h]
  all_goals cases h

/-- Without a fault, the access through I stays in memory. -/
theorem State.reach_of_no_fault {s : State} {i : Instr} {m : Nat} (h : s.faultOf i = none)
    (hm : accessReach i = some m) : s.i.toNat + m ≤ 0xFFF := by
  rw [State.faultOf_of_accessReach hm] at h
  by_contra hlt
  rw [if_pos (by omega)] at h
  cases h

/-- The three ways to a fault. -/
theorem State.faultOf_eq_some {s : State} {i : Instr} {k : FaultKind} {a : Word} (h : s.faultOf i = some (k, a)) :
    ((∃ nnn, i = .call nnn) ∧ s.sp.val = 16 ∧ k = .stackOverflow ∧ a = 0) ∨
    (i = .ret ∧ s.sp.val = 0 ∧ k = .stackUnderflow ∧ a = 0) ∨
    (∃ m, accessReach i = some m ∧ 0xFFF < s.i.toNat + m ∧ k = .outOfBounds ∧ a = s.i) := by
  unfold State.faultOf at h
  split at h
  case h_1 nnn =>
    obtain ⟨hsp, hka⟩ := Option.ite_none_right_eq_some.mp h
    cases hka; exact .inl ⟨⟨nnn, rfl⟩, hsp, rfl, rfl⟩
  case h_2 =>
    obtain ⟨hsp, hka⟩ := Option.ite_none_right_eq_some.mp h
    cases hka; exact .inr (.inl ⟨rfl, hsp, rfl, rfl⟩)
  case h_3 =>
    split at h
    case h_2 => cases h
    case h_1 m hm =>
      obtain ⟨hi, hka⟩ := Option.ite_none_right_eq_some.mp h
      cases hka; exact .inr (.inr ⟨m, hm, hi, rfl, rfl⟩)

/-- An instruction that has a fault to raise raises it, with its own word as the opcode. -/
theorem exec_of_fault {i : Instr} {s : State} {k : FaultKind} {a : Word} (h : s.faultOf i = some (k, a)) :
    exec i s = .next (s.raise k (encode i) a) := by
  obtain ⟨⟨nnn, rfl⟩, hsp, rfl, rfl⟩ | ⟨rfl, hsp, rfl, rfl⟩ | ⟨m, hm, hi, rfl, rfl⟩ := State.faultOf_eq_some h
  · exact execCall_fault nnn hsp
  · exact execRet_fault hsp
  · cases i
    case draw x y n =>
      obtain ⟨hn, hm⟩ := Option.ite_none_left_eq_some.mp hm
      cases hm; exact execDraw_fault x y (not_or.mpr ⟨hn, by omega⟩)
    case movBcd x => cases hm; exact execMovBcd_fault x hi
    case writeM x => cases hm; exact execWriteM_fault hi
    case readM x => cases hm; exact execReadM_fault hi
    all_goals cases hm

/-- Without a fault, `CALL` finds room on the stack and `RET` an entry. -/
theorem State.sp_of_no_fault {s : State} {i : Instr} (h : s.faultOf i = none) :
    ((∃ nnn, i = .call nnn) → s.sp.val < 16) ∧ (i = .ret → 0 < s.sp.val) := by
  refine ⟨?_, ?_⟩
  · rintro ⟨nnn, rfl⟩
    have hne : s.sp.val ≠ 16 := fun e => by rw [State.faultOf, if_pos e] at h; cases h
    omega
  · rintro rfl
    have hne : s.sp.val ≠ 0 := fun e => by rw [State.faultOf, if_pos e] at h; cases h
    omega

theorem State.after_call {s : State} (nnn : Addr12) (h : s.sp.val < 16) : s.after (.call nnn) = s.called nnn h := by
  have hval : Fin.ofNat 17 (s.sp.val + 1) = ⟨s.sp.val + 1, by omega⟩ := Fin.ext (Nat.mod_eq_of_lt (by omega))
  rw [State.after, hval, dif_pos h, State.called]

theorem State.after_ret {s : State} (h : 0 < s.sp.val) : s.after .ret = s.returned h := by
  have hval : Fin.ofNat 17 (s.sp.val - 1) = ⟨s.sp.val - 1, by omega⟩ := Fin.ext (Nat.mod_eq_of_lt (by omega))
  have hlt : s.sp.val - 1 < 16 := by omega
  have htop : s.stack.toList.getD (s.sp.val - 1) 0 = s.stack[s.sp.val - 1] := by simp [hlt]
  rw [State.after, hval, htop, State.returned]

/-- Every other one leaves the state `after` it. -/
theorem exec_of_no_fault {i : Instr} {s : State} (h : s.faultOf i = none) : exec i s = .next (s.after i) := by
  cases i
  case call nnn =>
    have hsp := (State.sp_of_no_fault h).1 ⟨nnn, rfl⟩
    rw [State.after_call nnn hsp]
    exact execCall_ok nnn hsp
  case ret =>
    have hsp := (State.sp_of_no_fault h).2 rfl
    rw [State.after_ret hsp]
    exact execRet_ok hsp
  case draw x y n =>
    refine execDraw_ok x y (or_iff_not_imp_left.mpr fun hn => State.reach_of_no_fault h (i := .draw x y n) (if_neg hn))
  case movBcd x => exact execMovBcd_ok x (State.reach_of_no_fault h rfl)
  case writeM x => exact execWriteM_ok (State.reach_of_no_fault h rfl)
  case readM x => exact execReadM_ok (State.reach_of_no_fault h rfl)
  all_goals rfl

/-- What an instruction that answers a next state did. -/
theorem exec_next_cases {i : Instr} {s t : State} (h : exec i s = .next t) :
    (∃ k a, s.faultOf i = some (k, a) ∧ t = s.raise k (encode i) a) ∨ (s.faultOf i = none ∧ t = s.after i) := by
  cases hf : s.faultOf i with
  | none =>
    rw [exec_of_no_fault hf] at h
    cases h; exact .inr ⟨rfl, rfl⟩
  | some ka =>
    rw [exec_of_fault hf] at h
    cases h; exact .inl ⟨ka.1, ka.2, rfl, rfl⟩

/-! ### The writers of each element (10_state.md) -/

section
variable (s : State) (i : Instr)

theorem State.after_i :
    (s.after i).i = s.i ∨ (∃ nnn, i = .ldI nnn) ∨ (∃ x, i = .addI x) ∨ ∃ x, i = .ldF x := by
  cases i <;> simp [State.after]

theorem State.after_stack : (s.after i).stack = s.stack ∨ ∃ nnn, i = .call nnn := by
  cases i <;> simp [State.after]

theorem State.after_sp : (s.after i).sp = s.sp ∨ (∃ nnn, i = .call nnn) ∨ i = .ret := by
  cases i <;> simp [State.after]

theorem State.after_dt : (s.after i).dt = s.dt ∨ ∃ x, i = .ldDtVx x := by
  cases i <;> simp [State.after]

theorem State.after_st : (s.after i).st = s.st ∨ ∃ x, i = .ldStVx x := by
  cases i <;> simp [State.after]

theorem State.after_mem : (s.after i).mem = s.mem ∨ (∃ x, i = .movBcd x) ∨ ∃ x, i = .writeM x := by
  cases i <;> simp [State.after]

theorem State.after_fb : (s.after i).fb = s.fb ∨ i = .cls ∨ ∃ x y n, i = .draw x y n := by
  cases i <;> simp [State.after]

theorem State.after_keyPrev : (s.after i).keyPrev = s.keyPrev ∨ ∃ x, i = .waitKey x := by
  cases i <;> simp [State.after]

theorem State.after_draws : (s.after i).draws = s.draws ∨ ∃ x kk, i = .rnd x kk := by
  cases i <;> simp [State.after]

theorem State.after_mode : (s.after i).mode = s.mode ∨ ∃ x, (s.after i).mode = .awaitingKey x := by
  cases i <;> simp [State.after]

@[simp] theorem State.after_keys : (s.after i).keys = s.keys := by
  cases i <;> simp [State.after]

@[simp] theorem State.after_font : (s.after i).font = s.font := by
  cases i <;> simp [State.after]

@[simp] theorem State.after_schedule : (s.after i).schedule = s.schedule := by
  cases i <;> simp [State.after]

end

/-- An instruction leaves `Running` mode by its fault or into the wait. -/
theorem State.after_mode_ne_halted {s : State} (hrun : s.mode = .running) (i : Instr) : (s.after i).mode ≠ .halted := by
  obtain hkeep | ⟨x, hwait⟩ := s.after_mode i
  · rw [hkeep, hrun]; nofun
  · rw [hwait]; nofun

/-- Settles O53: a fault writes FAULT and MODE only, and the state after any other outcome has each element from its own
writers. -/
theorem eachElementHasItsWriters : Obligations.EachElementHasItsWriters := by
  intro i s t h
  obtain ⟨k, a, -, rfl⟩ | ⟨-, rfl⟩ := exec_next_cases h
  · exact ⟨.inl rfl, .inl rfl, .inl rfl, .inl rfl, .inl rfl, .inl (.of_eq rfl rfl), .inl (.of_eq rfl), rfl, .inl rfl,
      rfl, .inl rfl, rfl⟩
  · exact ⟨s.after_i i, s.after_stack i, s.after_sp i, s.after_dt i, s.after_st i,
      (s.after_mem i).imp_left (.of_eq (s.after_font i)), (s.after_fb i).imp_left .of_eq, s.after_keys i,
      s.after_keyPrev i, s.after_font i, s.after_draws i, s.after_schedule i⟩

/-- No instruction touches the schedule. -/
theorem exec_schedule {i : Instr} {s t : State} (h : exec i s = .next t) : t.schedule = s.schedule := by
  obtain ⟨k, a, -, rfl⟩ | ⟨-, rfl⟩ := exec_next_cases h
  · rfl
  · exact s.after_schedule i

/-- A register that an instruction has no leave to write keeps its value. -/
theorem State.getV_after {s : State} {i : Instr} {r : RegIdx} (h : ¬ mayWriteReg i r) :
    (s.after i).getV r = s.getV r := by
  cases i
  case ldImm | addImm | ldReg | orReg | andReg | xorReg | ldVxDt | rnd | draw =>
    rw [State.after, State.getV_advance, State.getV_setV]
    exact if_neg h
  case addReg | sub | shr | subn | shl =>
    obtain ⟨hx, hf⟩ := not_or.mp h
    rw [State.after, State.getV_writeFlagged, if_neg hf, if_neg hx]
  case readM x =>
    rw [State.after, State.getV_advance, State.getV_loadRegs]
    exact if_neg h
  case seImm | sneImm | seReg | sneReg | skipKey | skipNoKey => exact State.getV_skipIf ..
  all_goals rfl

/-- Settles O54: a fault writes no register, and every other outcome writes only registers it may write. -/
theorem onlyDestinationsAndFlagsAreWritten : Obligations.OnlyDestinationsAndFlagsAreWritten := by
  intro i s t r h hr
  obtain ⟨k, a, -, rfl⟩ | ⟨-, rfl⟩ := exec_next_cases h
  · rfl
  · exact State.getV_after hr

theorem flagByte_eq (f : Bool) : flagByte f = 0x00 ∨ flagByte f = 0x01 := by
  cases f
  · exact .inl rfl
  · exact .inr rfl

/-- Settles O55: outside `Halted` the instruction raised no fault, and its last write to a register is a flag in VF. -/
theorem flagIsZeroOrOne : Obligations.FlagIsZeroOrOne := by
  intro i s t hrun h ht hflag
  obtain ⟨k, a, -, rfl⟩ | ⟨-, rfl⟩ := exec_next_cases h
  · exact absurd rfl ht
  · obtain ⟨x, y, rfl | rfl | rfl | rfl | rfl | ⟨n, rfl⟩⟩ := hflag
    all_goals simpa [State.after] using flagByte_eq _

/-! ### A step always goes on, but for a refused `Reset` (40_step.md R90) -/

theorem exec_total (i : Instr) (s : State) : ∃ t, exec i s = .next t := by
  cases hf : s.faultOf i with
  | none => exact ⟨_, exec_of_no_fault hf⟩
  | some ka => exact ⟨_, exec_of_fault hf⟩

theorem stepRunning_total (s : State) : ∃ t, stepRunning s = .next t := by
  obtain ⟨-, h⟩ | ⟨-, -, h⟩ | ⟨-, -, -, h⟩ | ⟨-, -, i, -, h⟩ := stepRunning_cases s
  case inr.inr.inr => rw [h]; exact exec_total i s
  all_goals exact ⟨_, h⟩

theorem stepAwaitingKey_of_some {s : State} {k : Nat} (x : RegIdx) (h : leastKey s.newlyDown = some k) :
    stepAwaitingKey x s =
      .next { (s.setV x (BitVec.ofNat 8 k)).advance with mode := .running, keyPrev := s.keys } := by
  rw [stepAwaitingKey, h]

theorem stepAwaitingKey_of_none {s : State} (x : RegIdx) (h : leastKey s.newlyDown = none) :
    stepAwaitingKey x s = .next { s with keyPrev := s.keys } := by
  rw [stepAwaitingKey, h]

theorem stepAwaitingKey_total (x : RegIdx) (s : State) : ∃ t, stepAwaitingKey x s = .next t := by
  cases h : leastKey s.newlyDown with
  | none => exact ⟨_, stepAwaitingKey_of_none x h⟩
  | some k => exact ⟨_, stepAwaitingKey_of_some x h⟩

/-- A poll completes the wait, or samples the keys and goes on waiting (40_step.md R95). -/
theorem stepAwaitingKey_cases {x : RegIdx} {s t : State} (h : stepAwaitingKey x s = .next t) :
    (∃ b, t = { (s.setV x b).advance with mode := .running, keyPrev := s.keys }) ∨ t = { s with keyPrev := s.keys } := by
  cases hk : leastKey s.newlyDown with
  | none =>
    rw [stepAwaitingKey_of_none x hk] at h
    cases h; exact .inr rfl
  | some k =>
    rw [stepAwaitingKey_of_some x hk] at h
    cases h; exact .inl ⟨_, rfl⟩

theorem stepEvent_total (s : State) : ∃ t, stepEvent s = .next t := by
  rw [stepEvent]
  cases s.mode with
  | running => exact stepRunning_total s
  | awaitingKey x => exact stepAwaitingKey_total x s
  | halted => exact ⟨s, rfl⟩

/-- Settles O7: an instruction raises a fault, which is a next state, or leaves the state `after` it; of the events only
`Reset` can be refused. -/
theorem onlyOversizedResetStops : Obligations.OnlyOversizedResetStops := by
  refine ⟨exec_total, fun s => ?_⟩
  cases he : s.nextEvent with
  | step => rw [step_eq_stepEvent he]; exact .inl (stepEvent_total _)
  | tick => exact .inl ⟨_, step_eq_tick he⟩
  | setKeys k => exact .inl ⟨_, step_eq_setKeys he⟩
  | reset image =>
    rw [step_eq_resetEvent he]
    rcases Nat.lt_or_ge 3584 image.length with hlen | hlen
    · exact .inr ⟨image, rfl, hlen, resetEvent_refused hlen⟩
    · exact .inl ⟨_, resetEvent_ok hlen⟩

/-! ### Where PC goes (10_state.md section 4) -/

theorem wordOfAddr_eq (a : Addr12) : wordOfAddr a = BitVec.ofNat 16 a.toNat := (BitVec.ofNat_toNat 16 a).symm

/-- Settles O15: PC stays in a fault and is otherwise read off the state `after` the instruction; `CALL` pushes at
the depth it found; a poll of the keys that ends the wait advances PC. -/
theorem eachClassAdvancesPc : Obligations.EachClassAdvancesPc := by
  refine ⟨fun i s t hrun h => ?_, fun nnn s t k hk h => ?_, fun s t x he hmode h => ?_⟩
  · obtain ⟨k, a, -, rfl⟩ | ⟨-, rfl⟩ := exec_next_cases h
    · exact (if_pos rfl).symm
    · rw [if_neg (State.after_mode_ne_halted hrun i)]
      cases i
      case seImm | seReg | sneImm | sneReg => simp [State.after]
      case skipKey => simp [State.after, State.keyDown]
      case skipNoKey x =>
        simp only [State.after, State.skipIf_pc, State.keyDown, State.toNat_lowNibble]
        cases s.keys.getLsbD ((s.getV x).toNat % 16) <;> rfl
      case readM => simp [State.after]
      case jp | call => simp [State.after, wordOfAddr_eq]
      case jpV0 => simp [State.after, wordOfAddr_eq, State.wordOfV, BitVec.ofNat_add]
      all_goals rfl
  · have hsp : s.sp.val < 16 := by omega
    cases (execCall_ok nnn hsp).symm.trans h
    simp [hk]
  · obtain ⟨b, rfl⟩ | rfl := stepAwaitingKey_cases ((step_eq_stepAwaitingKey he hmode).symm.trans h)
    · rfl
    · have hwait : s.mode ≠ .running := by rw [hmode]; nofun
      exact (if_neg hwait).symm

end Sys2Proof.Machine
end

section
/-! What a step does, said once over all events and modes (spec/40_step.md, 00_scope.md R7), and what every step keeps: the
invariant of the reachable states and the canonical form of memory (10_state.md R39). -/

namespace Sys2Proof.Machine

/-! ### The ways of a step -/

/-- The ways from `s` to the next state: a `Step` in `Running` mode that faults before it has an instruction or executes
one, the two outcomes of a poll of the keys, a `Step` in `Halted`, and the three events of the host and the clock. -/
inductive StepsTo (s : State) : State → Prop
  | raised (k : FaultKind) (w a : Word) (hk : k ≠ .none) (he : s.nextEvent = .step) (hm : s.mode = .running) :
      StepsTo s (s.popEvent.raise k w a)
  | executed (i : Instr) (t : State) (he : s.nextEvent = .step) (hm : s.mode = .running)
      (hbound : s.pc.toNat + 1 ≤ 0xFFF) (heven : s.pc.toNat % 2 = 0) (hd : decode (s.wordAt s.pc.toNat) = .ok i)
      (ht : exec i s.popEvent = .next t) : StepsTo s t
  | keyed (x : RegIdx) (b : Byte) (he : s.nextEvent = .step) (hm : s.mode = .awaitingKey x) :
      StepsTo s { (s.popEvent.setV x b).advance with mode := .running, keyPrev := s.keys }
  | waited (x : RegIdx) (he : s.nextEvent = .step) (hm : s.mode = .awaitingKey x) :
      StepsTo s { s.popEvent with keyPrev := s.keys }
  | halted (he : s.nextEvent = .step) (hm : s.mode = .halted) : StepsTo s s.popEvent
  | ticked (he : s.nextEvent = .tick) : StepsTo s s.popEvent.tick
  | keysSet (k : BitVec 16) (he : s.nextEvent = .setKeys k) : StepsTo s (s.popEvent.setKeys k)
  | booted (image : List Byte) (he : s.nextEvent = .reset image) (hlen : image.length ≤ 3584) :
      StepsTo s (s.popEvent.boot image)

theorem stepsTo_of_stepRunning {s t : State} (he : s.nextEvent = .step) (hm : s.mode = .running)
    (h : stepRunning s.popEvent = .next t) : StepsTo s t := by
  obtain ⟨-, hr⟩ | ⟨-, -, hr⟩ | ⟨-, -, -, hr⟩ | ⟨hbound, heven, i, hd, hx⟩ := stepRunning_cases s.popEvent
  case inr.inr.inr => exact .executed i t he hm hbound heven hd (hx.symm.trans h)
  all_goals
    cases hr.symm.trans h
    exact .raised _ _ _ (by decide) he hm

/-- Every step that goes on went one of these ways. -/
theorem stepsTo_of_step {s t : State} (h : step s = .next t) : StepsTo s t := by
  cases he : s.nextEvent with
  | tick => cases (step_eq_tick he).symm.trans h; exact .ticked he
  | setKeys k => cases (step_eq_setKeys he).symm.trans h; exact .keysSet k he
  | reset image =>
    rcases Nat.lt_or_ge 3584 image.length with hlen | hlen
    · cases ((step_eq_resetEvent he).trans (resetEvent_refused hlen)).symm.trans h
    · cases ((step_eq_resetEvent he).trans (resetEvent_ok hlen)).symm.trans h
      exact .booted image he hlen
  | step =>
    cases hm : s.mode with
    | running => exact stepsTo_of_stepRunning he hm ((step_eq_stepRunning he hm).symm.trans h)
    | awaitingKey x =>
      obtain ⟨b, rfl⟩ | rfl := stepAwaitingKey_cases ((step_eq_stepAwaitingKey he hm).symm.trans h)
      · exact .keyed x b he hm
      · exact .waited x he hm
    | halted => cases (step_eq_popEvent he hm).symm.trans h; exact .halted he hm

/-! ### Memory keeps its canonical form -/

theorem State.memOk_of_eq {s t : State} (h : s.memOk) (hf : t.font = s.font) (hm : t.mem = s.mem) : t.memOk := by
  rw [State.memOk, hf, hm]; exact h

theorem memOk_exec {i : Instr} {s t : State} (h : s.memOk) (ht : exec i s = .next t) : t.memOk := by
  obtain ⟨k, w, a, -, rfl⟩ | ⟨-, -, -, -, -, hkeep, -⟩ | ⟨-, -, hm, hf, -⟩ | ⟨-, -, hm, hf, -⟩ | ⟨x, -, -, hm, hf, -⟩ :=
    exec_cases ht
  · exact h
  · exact hkeep h
  · exact State.memOk_of_eq h hf hm
  · exact State.memOk_of_eq h hf hm
  · exact State.memOk_of_eq h hf hm

/-- Settles O25: the stores of an instruction lie inside memory, an accepted image fits, and no other way of a step writes
memory. -/
theorem stepKeepsMemoryCanonical : Obligations.StepKeepsMemoryCanonical := by
  intro s t h hstep
  cases stepsTo_of_step hstep with
  | executed i t he hm hbound heven hd ht => exact memOk_exec (s := s.popEvent) h ht
  | booted image he hlen => exact s.popEvent.memOk_boot hlen
  | raised | keyed | waited | halted | ticked | keysSet => exact h

/-! ### The invariant of the reachable states -/

theorem State.inv_boot (s : State) {image : List Byte} (hlen : image.length ≤ 3584) : (s.boot image).Inv where
  mem := s.memOk_boot hlen
  stack := fun _ hk => absurd hk (Nat.not_lt_zero _)
  pc := ⟨(by decide : (0x200#16).toNat ≤ 0x10FE), nofun⟩
  fault := rfl

/-- Settles O23: the reset state is what an accepted `Reset` of the empty image leaves. -/
theorem invariantHoldsAtReset : Obligations.InvariantHoldsAtReset := State.reset.inv_boot (image := []) (by decide)

theorem State.Inv.raise {s : State} (h : s.Inv) {k : FaultKind} (hk : k ≠ .none) (w a : Word) : (s.raise k w a).Inv where
  mem := h.mem
  stack := h.stack
  pc := ⟨h.pc.1, nofun⟩
  fault := hk

theorem returnAddress_iff (a : Word) :
    returnAddress a = true ↔ a.toNat % 2 = 0 ∧ 2 ≤ a.toNat ∧ a.toNat ≤ 0x1000 := by
  have hodd := getLsbD_zero_iff a
  rw [returnAddress, Bool.and_eq_true, Bool.and_eq_true, Bool.not_eq_true', ← Bool.not_eq_true, hodd]
  simp only [decide_eq_true_eq, and_assoc]
  omega

/-- PC + 2, where PC was fetched from, is a return address. -/
theorem returnAddress_next {pc : Word} (hbound : pc.toNat + 1 ≤ 0xFFF) (heven : pc.toNat % 2 = 0) :
    returnAddress (pc + 2) = true := by
  have hval : (pc + 2).toNat = pc.toNat + 2 := by bv_omega
  rw [returnAddress_iff]
  omega

/-- A push of a return address keeps the live entries return addresses. -/
theorem State.stackOk_push {s t : State} {a : Word} (h : s.stackOk) (ha : returnAddress a = true)
    (hlt : s.sp.val < 16) (hsp : t.sp.val = s.sp.val + 1) (hstack : t.stack = s.stack.set s.sp.val a) : t.stackOk := by
  intro k hk
  rw [hstack, Vector.getElem_set]
  split
  · exact ha
  · exact h k (by omega)

theorem State.stackOk_of_eq {s t : State} (h : s.stackOk) (hsp : t.sp.val ≤ s.sp.val) (hstack : t.stack = s.stack) :
    t.stackOk := by
  intro k hk
  rw [hstack]
  exact h k (by omega)

theorem State.pcOk_of_running {t : State} (hm : t.mode = .running) (hpc : t.pc.toNat ≤ 0x10FE) : t.pcOk :=
  ⟨hpc, fun _ hx => by cases hm.symm.trans hx⟩

theorem State.faultOk_of_eq {s t : State} (h : s.faultOk) (hs : s.mode ≠ .halted) (ht : t.mode ≠ .halted)
    (hf : t.fault = s.fault) : t.faultOk := by
  rw [State.faultOk, if_neg hs] at h
  rw [State.faultOk, if_neg ht, hf, h]

/-- An instruction fetched in `Running` mode keeps the invariant: whatever it does to control state (`exec_cases`), PC stays
in range, a push pushes a return address, and a fault sets FAULT with the mode. -/
theorem inv_exec {i : Instr} {s t : State} (h : s.Inv) (hrun : s.mode = .running) (hbound : s.pc.toNat + 1 ≤ 0xFFF)
    (heven : s.pc.toNat % 2 = 0) (ht : exec i s = .next t) : t.Inv := by
  have hmem : t.memOk := memOk_exec h.mem ht
  have hs : s.mode ≠ .halted := by rw [hrun]; nofun
  have hgoes (hm : t.mode = s.mode) (hf : t.fault = s.fault) (hpc : t.pc.toNat ≤ 0x10FE) : t.pcOk ∧ t.faultOk :=
    ⟨State.pcOk_of_running (hm.trans hrun) hpc, State.faultOk_of_eq h.fault hs (by rw [hm]; exact hs) hf⟩
  obtain ⟨k, w, a, hk, rfl⟩ | ⟨hm, hf, hst, hsp, -, -, hpc⟩ | ⟨hm, hf, -, -, hpc, hsp, hlt, hst⟩ |
    ⟨hm, hf, -, -, hst, hsp, k, hk, hpc⟩ | ⟨x, hm, hf, -, -, hst, hsp, hpc⟩ := exec_cases ht
  case inl => exact h.raise hk w a
  case inr.inl =>
    have hpc : t.pc.toNat ≤ 0x10FE := by
      rcases hpc with hpc | hpc | hpc
      · rw [hpc]; bv_omega
      · rw [hpc]; bv_omega
      · exact hpc
    obtain ⟨hpcOk, hfaultOk⟩ := hgoes hm hf hpc
    exact ⟨hmem, State.stackOk_of_eq h.stack (by rw [hsp]) hst, hpcOk, hfaultOk⟩
  case inr.inr.inl =>
    obtain ⟨hpcOk, hfaultOk⟩ := hgoes hm hf (by omega)
    exact ⟨hmem, State.stackOk_push h.stack (returnAddress_next hbound heven) hlt hsp hst, hpcOk, hfaultOk⟩
  case inr.inr.inr.inl =>
    have hret := (returnAddress_iff _).mp (h.stack k (by omega))
    obtain ⟨hpcOk, hfaultOk⟩ := hgoes hm hf (by rw [hpc]; omega)
    exact ⟨hmem, State.stackOk_of_eq h.stack (by omega) hst, hpcOk, hfaultOk⟩
  case inr.inr.inr.inr =>
    have hfetch : fetchable t.pc = true := by rw [hpc]; exact (fetchable_iff s.pc).mpr ⟨hbound, heven⟩
    exact ⟨hmem, State.stackOk_of_eq h.stack (by rw [hsp]) hst, ⟨by rw [hpc]; omega, fun _ _ => hfetch⟩,
      State.faultOk_of_eq h.fault hs (by rw [hm]; nofun) hf⟩

/-- Settles O24: an instruction keeps the invariant, `raise` and `Reset` meet it, the end of a wait leaves the fetchable PC
of the waiting instruction by 2, and every other way of a step leaves all that it speaks of. -/
theorem stepKeepsInvariant : Obligations.StepKeepsInvariant := by
  intro s t h hstep
  have hpop : s.popEvent.Inv := ⟨h.mem, h.stack, h.pc, h.fault⟩
  cases stepsTo_of_step hstep with
  | raised k w a hk he hm => exact hpop.raise hk w a
  | executed i t he hm hbound heven hd ht => exact inv_exec hpop hm hbound heven ht
  | booted image he hlen => exact s.popEvent.inv_boot hlen
  | halted | ticked | keysSet => exact ⟨h.mem, h.stack, h.pc, h.fault⟩
  | waited => exact ⟨h.mem, h.stack, h.pc, h.fault⟩
  | keyed x b he hm =>
    obtain ⟨hbound, -⟩ := (fetchable_iff s.pc).mp (h.pc.2 x hm)
    have hpc : (s.pc + 2).toNat ≤ 0x10FE := by bv_omega
    exact ⟨h.mem, h.stack, State.pcOk_of_running rfl hpc,
      State.faultOk_of_eq h.fault (by rw [hm]; nofun) nofun rfl⟩

end Sys2Proof.Machine
end

section
/-! The event `Step` in its three modes (spec/40_step.md R90 to R97) and the fault records (60_exceptions.md R181). -/

namespace Sys2Proof.Machine

/-! ### Running -/

/-- Settles O6: past both fetch checks the step is `exec` of the decoded word, on the popped state. -/
theorem stepRunsTheDecodedInstruction : Obligations.StepRunsTheDecodedInstruction :=
  fun s _ he hrun hbound heven hd =>
    ⟨(step_eq_stepRunning he hrun).trans (stepRunning_of_decode (s := s.popEvent) hbound heven hd), rfl⟩

/-- A fetch at or beyond 0xFFF enters the fault `OutOfBounds`. -/
theorem step_of_pc_out_of_bounds {s : State} (he : s.nextEvent = .step) (hrun : s.mode = .running)
    (h : 0xFFF < s.pc.toNat + 1) : ∃ t, step s = .next t ∧ FaultEntered s.popEvent t .outOfBounds 0x0000 s.pc :=
  ⟨_, (step_eq_stepRunning he hrun).trans (stepRunning_of_pc_out_of_bounds (s := s.popEvent) h), faultEntered_raise ..⟩

/-- Settles O8: each check that fails raises its own kind, the bound being looked at first. -/
theorem fetchFaultsAreRaised : Obligations.FetchFaultsAreRaised := fun s he hrun =>
  ⟨step_of_pc_out_of_bounds he hrun, fun hbound hodd =>
    ⟨_, (step_eq_stepRunning he hrun).trans (stepRunning_of_pc_odd (s := s.popEvent) hbound hodd), faultEntered_raise ..⟩⟩

/-! ### Awaiting a key -/

theorem newlyDown_iff (s : State) (k : Fin 16) : NewlyDown s k ↔ s.newlyDown.getLsbD k.val = true := by
  rw [State.getLsbD_newlyDown s k.val k.isLt, Bool.and_eq_true, Bool.not_eq_true']
  rfl

theorem leastKey_newlyDown {s : State} {k : Fin 16} (h : NewlyDown s k) (hleast : ∀ j : Fin 16, j < k → ¬ NewlyDown s j) :
    leastKey s.newlyDown = some k.val := by
  refine leastKey_eq_some.mpr ⟨k.isLt, (newlyDown_iff s k).mp h, fun j hj => ?_⟩
  have hnot := hleast ⟨j, by omega⟩ hj
  rw [newlyDown_iff] at hnot
  exact Bool.eq_false_of_not_eq_true hnot

theorem leastKey_of_none_newlyDown {s : State} (h : ∀ k : Fin 16, ¬ NewlyDown s k) : leastKey s.newlyDown = none := by
  refine leastKey_eq_none.mpr fun k hk => ?_
  have hnot := h ⟨k, hk⟩
  rw [newlyDown_iff] at hnot
  exact Bool.eq_false_of_not_eq_true hnot

/-- Settles O10: `leastKey` finds the least newly pressed key, whose number goes to the waiting register, and finds none
where there is none. -/
theorem waitingStepPollsTheKeys : Obligations.WaitingStepPollsTheKeys := by
  refine fun s x he hwait => ⟨fun k hk hleast => ?_, fun hnone => ?_⟩
  · have hkey : leastKey s.popEvent.newlyDown = some k.val := leastKey_newlyDown (s := s.popEvent) hk hleast
    refine ⟨_, (step_eq_stepAwaitingKey he hwait).trans (stepAwaitingKey_of_some x hkey), ?_,
      regsKept_setV s.popEvent x _, .of_eq rfl rfl, .of_eq rfl, rfl⟩
    have hval : (s.popEvent.setV x (BitVec.ofNat 8 k.val)).getV x = BitVec.ofNat 8 k.val := by simp
    refine (congrArg BitVec.toNat hval).trans ?_
    rw [BitVec.toNat_ofNat]
    omega
  · exact (step_eq_stepAwaitingKey he hwait).trans
      (stepAwaitingKey_of_none x (leastKey_of_none_newlyDown (s := s.popEvent) hnone))

/-- Settles O45: the wait begins with the keys sampled, so a poll with the keys unchanged finds none newly pressed. -/
theorem waitKeyEntersTheWait : Obligations.WaitKeyEntersTheWait := by
  refine fun x s => ⟨_, rfl, rfl, .of_eq rfl, .of_eq rfl rfl, .of_eq rfl, fun he => ?_⟩
  refine (step_eq_stepAwaitingKey he rfl).trans (stepAwaitingKey_of_none x (leastKey_of_none_newlyDown fun k hk => ?_))
  obtain ⟨hdown, hup⟩ := hk
  exact absurd (hdown.symm.trans hup) nofun

/-! ### Halted -/

/-- Settles O11: a `Step` answers the popped state, with the record still to report, and `Tick` and `SetKeys` write their own
elements. -/
theorem haltedIsTerminal : Obligations.HaltedIsTerminal := by
  refine fun s hhalt => ⟨fun he => ⟨step_eq_popEvent he hhalt, ?_⟩, fun hreset => ?_⟩
  · rw [State.report, State.popEvent_mode, hhalt]
    rfl
  · cases he : s.nextEvent with
    | step => exact ⟨_, step_eq_popEvent he hhalt, rfl, .of_eq rfl rfl, .of_eq rfl, .of_eq rfl⟩
    | tick => exact ⟨_, step_eq_tick he, rfl, .of_eq rfl rfl, .of_eq rfl, .of_eq rfl⟩
    | setKeys k => exact ⟨_, step_eq_setKeys he, rfl, .of_eq rfl rfl, .of_eq rfl, .of_eq rfl⟩
    | reset image => exact absurd he (hreset image)

/-- Settles O12: of the ways of a step, those that begin in `Halted` keep mode, record and PC, or are an accepted `Reset`. -/
theorem haltedIsLeftOnlyByReset : Obligations.HaltedIsLeftOnlyByReset := by
  intro s t hhalt hstep
  have hwrong : s.goneWrong = true := by rw [State.goneWrong, hhalt]; rfl
  have hunfinished : s.finished = false := by rw [State.finished, hhalt]; rfl
  refine ⟨hwrong, hunfinished, ?_⟩
  cases stepsTo_of_step hstep with
  | booted image he hlen => exact .inr ⟨image, he, rfl, rfl, rfl, s.popEvent.byteAt_boot image⟩
  | halted | ticked | keysSet => exact .inl ⟨hhalt, rfl, rfl⟩
  | raised k w a hk he hm => cases hhalt.symm.trans hm
  | executed i t he hm => cases hhalt.symm.trans hm
  | keyed x b he hm => cases hhalt.symm.trans hm
  | waited x he hm => cases hhalt.symm.trans hm

/-! ### Fault records -/

/-- The instructions that can raise a fault have no ignored bits, so the encoder gives the fetched word (log 6). -/
theorem encode_of_faultOf {s : State} {w : Word} {i : Instr} {k : FaultKind} {a : Word} (hd : decode w = .ok i)
    (hf : s.faultOf i = some (k, a)) : encode i = w := by
  rw [encode_of_decode hd]
  cases i
  case seReg | sneReg => cases hf
  all_goals rfl

/-- The rows of the table for an instruction, `w` being its word. -/
theorem faultRecord_of_exec {s t : State} {w : Word} {i : Instr} (hd : decode w = .ok i) (hrun : s.mode = .running)
    (ht : exec i s = .next t) (hhalt : t.mode = .halted) :
    (w = 0x00EE ∧ s.sp.val = 0 ∧ t.fault = ⟨.stackUnderflow, s.pc, w, 0⟩) ∨
      ((∃ nnn, decode w = .ok (.call nnn)) ∧ s.sp.val = 16 ∧ t.fault = ⟨.stackOverflow, s.pc, w, 0⟩) ∨
      (∃ i m, decode w = .ok i ∧ accessReach i = some m ∧ 0xFFF < s.i.toNat + m ∧
        t.fault = ⟨.outOfBounds, s.pc, w, s.i⟩) := by
  obtain ⟨k, a, hf, rfl⟩ | ⟨-, rfl⟩ := exec_next_cases ht
  case inr => exact absurd hhalt (State.after_mode_ne_halted hrun i)
  case inl =>
    have henc : encode i = w := encode_of_faultOf hd hf
    rw [State.raise_fault, henc]
    obtain ⟨⟨nnn, rfl⟩, hsp, rfl, rfl⟩ | ⟨rfl, hsp, rfl, rfl⟩ | ⟨m, hm, hi, rfl, rfl⟩ := State.faultOf_eq_some hf
    · exact .inr (.inl ⟨⟨nnn, hd⟩, hsp, rfl⟩)
    · exact .inl ⟨henc.symm, hsp, rfl⟩
    · exact .inr (.inr ⟨i, m, hd, hm, hi, rfl⟩)

/-- Settles O14: the checks of `Step` in their order, each with its record, and then the three faults of an instruction. -/
theorem faultRecordsAreAsTabled : Obligations.FaultRecordsAreAsTabled := by
  intro s t w he hrun hstep hhalt hw
  have hstep : stepRunning s.popEvent = .next t := (step_eq_stepRunning he hrun).symm.trans hstep
  have hword : s.popEvent.wordAt s.pc.toNat = w := hw.symm
  have hcases := stepRunning_cases s.popEvent
  rw [State.popEvent_pc, hword] at hcases
  obtain ⟨h1, hr⟩ | ⟨h1, h2, hr⟩ | ⟨h1, h2, ⟨e, hd⟩, hr⟩ | ⟨h1, h2, i, hd, hx⟩ := hcases
  · rw [if_pos h1]
    cases hr.symm.trans hstep; rfl
  · rw [if_neg (by omega), if_pos h2]
    cases hr.symm.trans hstep; rfl
  · rw [if_neg (by omega), if_neg (by omega), if_pos (wordLegal_of_decode_error hd)]
    cases hr.symm.trans hstep; rfl
  · rw [if_neg (by omega), if_neg (by omega), if_neg (by rw [wordLegal_of_decode hd]; nofun)]
    exact faultRecord_of_exec (s := s.popEvent) hd hrun (hx.symm.trans hstep) hhalt

end Sys2Proof.Machine
end

section
/-! The events of the clock and the host (spec/45_timers_keys.md R166, 70_reset_and_hazards.md R210, R211), what the host reads
(60_exceptions.md R196 to R198), and the schedule of a run (00_scope.md R7). -/

namespace Sys2Proof.Machine

/-! ### Tick -/

/-- Settles O16: each timer counts down with floor 0, and the tone sounds while the new ST is not 0. -/
theorem tickDecrementsBothTimers : Obligations.TickDecrementsBothTimers := by
  refine fun s he => ⟨_, step_eq_tick he, toNat_countDown s.dt, toNat_countDown s.st, rfl, ?_⟩
  rw [State.soundActive, State.tick_st, State.popEvent_st, toNat_countDown]
  exact decide_eq_decide.mpr (by omega)

/-- Settles O18: by induction on the number of ticks, each of which subtracts 1 with floor 0 from either timer. -/
theorem repeatedTicksStopAtZero : Obligations.RepeatedTicksStopAtZero := by
  intro n
  induction n with
  | zero => exact fun s _ => ⟨s, rfl, rfl, rfl, rfl⟩
  | succ n ih =>
    intro s h
    have htick : step s = .next s.popEvent.tick := step_eq_tick (h 0 (by omega))
    obtain ⟨t, hrun, hdt, hst, ht⟩ := ih s.popEvent.tick fun k hk => h (k + 1) (by omega)
    refine ⟨t, (core_run_succ n htick).trans hrun, ?_, ?_, ht⟩
    · rw [hdt, State.tick_dt, toNat_countDown, State.popEvent_dt]; omega
    · rw [hst, State.tick_st, toNat_countDown, State.popEvent_st]; omega

/-! ### The outputs -/

theorem State.soundActive_of_st_eq {s t : State} (h : t.st = s.st) : t.soundActive = s.soundActive := by
  rw [State.soundActive, State.soundActive, h]

/-- Settles O17: only `LD ST, Vx` among the instructions, and only `Tick` and `Reset` among the other events, write ST. -/
theorem statusOutputsFollowTheState : Obligations.StatusOutputsFollowTheState := by
  refine ⟨fun s => decide_eq_true_iff, fun x s => ⟨_, exec_ldStVx x s, State.soundActive_iff _⟩,
    fun s he => ⟨_, step_eq_tick he, ?_⟩, fun i s t h hne => ?_, fun s t h hne => ?_,
    fun s => ⟨fun hhalt => ?_, fun hgoes => ?_⟩⟩
  · rw [State.soundActive, decide_eq_true_iff, State.tick_st, State.popEvent_st, toNat_countDown]
    omega
  · obtain ⟨k, a, -, rfl⟩ | ⟨-, rfl⟩ := exec_next_cases h
    · exact absurd rfl hne
    · exact (s.after_st i).resolve_left fun hst => hne (State.soundActive_of_st_eq hst)
  · cases stepsTo_of_step h with
    | ticked he => exact .inr (.inl he)
    | booted image he => exact .inr (.inr ⟨image, he⟩)
    | keysSet => exact absurd rfl hne
    | raised | executed | keyed | waited | halted => exact .inl ‹_›
  · rw [State.report, hhalt]
  · rw [State.report]
    split
    · exact absurd ‹_› hgoes
    · rfl

/-! ### Reset -/

/-- The reset byte of an address of the font. -/
theorem resetByte_font (f : Font) (k : Fin 80) : f.resetByte (f.base.val + k.val) = f.data[k.val]'(k.isLt) := by
  rw [Font.resetByte, dif_pos (by omega)]
  simp

theorem resetByte_of_not_font {f : Font} {a : Nat} (h : a < f.base.val ∨ f.base.val + 80 ≤ a) : f.resetByte a = 0 := by
  rw [Font.resetByte, dif_neg (by omega)]

theorem byteAt_boot_image (s : State) {image : List Byte} {k : Nat} (hk : k < image.length) :
    (s.boot image).byteAt (0x200 + k) = image.getD k 0 := by
  rw [State.byteAt_boot, if_pos (by omega), Nat.add_sub_cancel_left]

/-- Settles O20: `boot` sets the reset values, and its memory is the image over the reset bytes; the font lies below the
image. -/
theorem resetLoadsFontAndImage : Obligations.ResetLoadsFontAndImage := by
  refine fun s image he hlen => ⟨_, (step_eq_resetEvent he).trans (resetEvent_ok hlen), rfl,
    fun k hk => byteAt_boot_image _ hk, fun k => ?_, fun a hfont himage => ?_, s.popEvent.memOk_boot hlen⟩
  · have := s.font.base.isLt
    rw [State.byteAt_boot, if_neg (by omega)]
    exact resetByte_font s.font k
  · rw [State.byteAt_boot, if_neg (by omega)]
    exact resetByte_of_not_font hfont

/-- Settles O21: the length decides between `boot` of the whole image and the refusal; `boot` of the empty image is the reset
state. -/
theorem oversizedImageIsRefused : Obligations.OversizedImageIsRefused := by
  refine ⟨fun s image he => ⟨?_, fun hlen => ?_⟩, rfl⟩
  · rw [step_eq_resetEvent he]
    refine ⟨fun h => ?_, resetEvent_refused⟩
    by_contra hlen
    cases (resetEvent_ok (s := s.popEvent) (Nat.not_lt.mp hlen)).symm.trans h
  · exact ⟨_, (step_eq_resetEvent he).trans (resetEvent_ok hlen), fun k hk => byteAt_boot_image _ hk⟩

/-- Settles O22: the reset state's fields are the tabled values, and its memory lists nothing. -/
theorem resetValuesAreAsTabled : Obligations.ResetValuesAreAsTabled := by
  refine ⟨fun x => ?_, rfl, rfl, fun k => ?_, rfl, rfl, rfl, rfl, rfl, rfl, rfl, fun k => ?_, fun a ha => ?_,
    fun row col => Bitmap.get_clear row col⟩
  · simp [State.getV, State.reset]
  · simp [State.reset]
  · have hbase : Config.defaultFont.base.val + k.val = k.val := Nat.zero_add _
    have hfont := resetByte_font Config.defaultFont k
    rwa [hbase] at hfont
  · exact resetByte_of_not_font (f := Config.defaultFont) (.inr ((Nat.zero_add 80).symm ▸ ha))

/-! ### The schedule -/

theorem step_schedule {s t : State} (h : step s = .next t) : t.schedule = s.schedule.rest := by
  cases stepsTo_of_step h with
  | executed i t he hm hbound heven hd ht => exact exec_schedule ht
  | raised | keyed | waited | halted | ticked | keysSet | booted => rfl

/-- A run that answers a next state took a step that did. -/
theorem exists_step_of_core_run_succ {n : Nat} {s t : State} (h : Sys2Proof.core.run (n + 1) s = .next t) :
    ∃ u, step s = .next u ∧ Sys2Proof.core.run n u = .next t := by
  cases hstep : step s with
  | fault r => cases r
  | refused r =>
    have hstep : Sys2Proof.core.step s = .refused r := hstep
    simp only [Host.Core.run, hstep] at h
    cases h
  | next u => exact ⟨u, rfl, (core_run_succ n hstep).symm.trans h⟩

theorem core_run_schedule {n : Nat} {s t : State} (h : Sys2Proof.core.run n s = .next t) :
    t.schedule = s.schedule.drop n := by
  induction n generalizing s with
  | zero => cases h; rfl
  | succ n ih =>
    obtain ⟨u, hstep, hrun⟩ := exists_step_of_core_run_succ h
    rw [ih hrun, step_schedule hstep, Schedule.drop_succ]

/-- The listed events come first, in order. -/
theorem Schedule.event_listed (es : List Event) (b : Beyond) (k : Nat) (hk : k < es.length) :
    Schedule.event ⟨es, b⟩ k = es[k] := by
  induction es generalizing k with
  | nil => cases hk
  | cons e es ih =>
    cases k with
    | zero => rfl
    | succ k => exact ih k (Nat.lt_of_succ_lt_succ hk)

/-- After them comes what follows. -/
theorem Schedule.event_beyond (es : List Event) (b : Beyond) (k : Nat) :
    Schedule.event ⟨es, b⟩ (es.length + k) = Schedule.event ⟨[], b⟩ k := by
  rw [Schedule.event, Schedule.drop_add, Schedule.drop_listed]
  rfl

theorem Schedule.event_steps (k : Nat) : Schedule.event ⟨[], .steps⟩ k = .step := by
  induction k with
  | zero => rfl
  | succ k ih => exact ih

theorem Schedule.event_free (m k : Nat) : Schedule.event ⟨[], .free m⟩ k = Config.freeEvent (m + k) := by
  induction k generalizing m with
  | zero => rfl
  | succ k ih =>
    rw [Schedule.event_succ, Nat.add_comm k 1, ← Nat.add_assoc]
    exact ih (m + 1)

/-- A cycle is a schedule that lists it once, and then it again. -/
theorem Schedule.event_cycle_eq (e : Event) (fs : List Event) (k : Nat) :
    Schedule.event ⟨[], .cycle e fs⟩ k = Schedule.event ⟨e :: fs, .cycle e fs⟩ k := by
  cases k <;> rfl

theorem Schedule.event_cycle (e : Event) (fs : List Event) (k : Nat) :
    Schedule.event ⟨[], .cycle e fs⟩ k = (e :: fs).getD (k % (fs.length + 1)) .step := by
  induction k using Nat.strong_induction_on with
  | _ k ih =>
    rw [Schedule.event_cycle_eq]
    rcases Nat.lt_or_ge k (fs.length + 1) with hlt | hge
    · rw [Nat.mod_eq_of_lt hlt]
      exact (Schedule.event_listed (e :: fs) _ k hlt).trans (List.getD_eq_getElem _ _ hlt).symm
    · obtain ⟨j, rfl⟩ := Nat.exists_eq_add_of_le hge
      rw [Nat.add_mod_left, ← ih j (by omega)]
      exact Schedule.event_beyond (e :: fs) (.cycle e fs) j

/-- Settles O59: each step takes one event off, and the events of a schedule are its list, followed by `Step` events, the
cycle, or the free events. -/
theorem runsFollowTheSchedule : Obligations.RunsFollowTheSchedule := by
  refine ⟨fun n s t h => core_run_schedule h, fun n s t h => ?_, fun b es =>
    ⟨Schedule.event_listed es b, fun k => ?_⟩⟩
  · rw [State.nextEvent, core_run_schedule h]
    rfl
  · rw [Schedule.event_beyond]
    cases b with
    | steps => exact Schedule.event_steps k
    | cycle e fs => exact Schedule.event_cycle e fs k
    | free m => exact Schedule.event_free m k

/-! ### A placed word -/

theorem decode_of_decodeTableWord {nbits w : Nat} {i : Instr} (h : decodeTableWord nbits w = some i) :
    decode (tableWord nbits w) = .ok i := by
  cases hd : decode (tableWord nbits w) with
  | ok j =>
    simp only [decodeTableWord, wordBytes, decodeBytes, word_of_wordBytes, hd] at h
    cases h; rfl
  | error e =>
    simp only [decodeTableWord, wordBytes, decodeBytes, word_of_wordBytes, hd] at h
    cases h

/-- Settles O58: the word is stored at the fetch address, which passes both fetch checks, and the schedule left after the
`Step` is the same again. -/
theorem placedWordRunsNext : Obligations.PlacedWordRunsNext := by
  intro s nbits w i h
  have hpc : (s.withFetchWord nbits w).pc = s.fetchAddr := rfl
  obtain ⟨hbound, heven⟩ := s.fetchAddr_ok
  have hd : decode ((s.withFetchWord nbits w).wordAt (s.withFetchWord nbits w).pc.toNat) = .ok i := by
    rw [hpc, State.withFetchWord, State.wordAt_placeWord]
    exact decode_of_decodeTableWord h
  refine ⟨(step_eq_stepRunning rfl rfl).trans (stepRunning_of_decode hbound heven hd), fun a h0 h1 => ?_⟩
  rw [hpc] at h0 h1
  refine (State.byteAt_store ..).trans (if_neg ?_)
  show ¬ (_ ∧ a < s.fetchAddr.toNat + 2)
  omega

end Sys2Proof.Machine
end

section
/-! Register file and ALU (spec/41_alu.md) and the skips (42_skip.md): each instruction answers, by definition, one of the
shared writes of Laws/Frames. -/

namespace Sys2Proof.Machine

/-- Settles O26: each is one write of Vx and the advance of PC. -/
theorem loadsAndAddImmediateWriteVx : Obligations.LoadsAndAddImmediateWriteVx := by
  refine fun x y kk s => ⟨⟨_, rfl, ?_, regsKept_setV s x _, onlyRegs_setV s x _⟩,
    ⟨_, rfl, ?_, regsKept_setV s x _, onlyRegs_setV s x _⟩, ⟨_, rfl, ?_, regsKept_setV s x _, onlyRegs_setV s x _⟩⟩
  · simp
  · simp
  · simp [addFlag_fst]

/-- Settles O27: each is one write of Vx, bit by bit the operation's, and the advance of PC. -/
theorem logicWritesVxBitwise : Obligations.LogicWritesVxBitwise := by
  refine fun x y s => ⟨⟨_, rfl, regsKept_setV s x _, onlyRegs_setV s x _, fun b => ?_⟩,
    ⟨_, rfl, regsKept_setV s x _, onlyRegs_setV s x _, fun b => ?_⟩,
    ⟨_, rfl, regsKept_setV s x _, onlyRegs_setV s x _, fun b => ?_⟩⟩
  · simp
  · simp
  · simp

/-- Settles O28: the sum and its carry, written by `writeFlagged`. -/
theorem addWritesSumAndCarry : Obligations.AddWritesSumAndCarry := fun x _ s =>
  ⟨_, rfl, flagWritten_writeFlagged s x (BitVec.eq_of_toNat_eq (by simp [addFlag])) decide_eq_true_iff⟩

/-- Settles O29: the difference and NOT borrow, written by `writeFlagged`. -/
theorem subtractionsWriteDifferenceAndNotBorrow : Obligations.SubtractionsWriteDifferenceAndNotBorrow := fun x _ s =>
  ⟨⟨_, rfl, flagWritten_writeFlagged s x (subFlag_fst _ _) decide_eq_true_iff⟩,
    ⟨_, rfl, flagWritten_writeFlagged s x (subFlag_fst _ _) decide_eq_true_iff⟩⟩

theorem shlFlag_fst (a : Byte) : (shlFlag a).1 = BitVec.ofNat 8 (a.toNat * 2 % 256) :=
  BitVec.eq_of_toNat_eq (by simp [shlFlag])

/-- Settles O30: the shifted byte and the bit shifted out, written by `writeFlagged`. -/
theorem shiftsWriteResultAndBitOut : Obligations.ShiftsWriteResultAndBitOut := fun x _ s =>
  ⟨⟨_, rfl, flagWritten_writeFlagged s x rfl (shrFlag_snd _)⟩,
    ⟨_, rfl, flagWritten_writeFlagged s x (shlFlag_fst _) (shlFlag_snd _)⟩⟩

/-- Settles O31: Vx is the draw at the counter, masked, and the counter moves on. -/
theorem randomIsMasked : Obligations.RandomIsMasked := by
  intro x kk s
  have hx : (({ s with draws := s.draws + 1 }.setV x (Config.draw8 s.draws &&& kk)).advance).getV x =
      Config.draw8 s.draws &&& kk := by simp
  refine ⟨_, rfl, hx, ?_, regsKept_setV { s with draws := s.draws + 1 } x _, rfl, .of_eq rfl rfl, .of_eq rfl⟩
  have hbit : Config.draw8 s.draws &&& kk &&& ~~~kk = 0 := by
    rw [BitVec.and_assoc, BitVec.and_not_self]
    exact BitVec.and_zero
  exact (congrArg (· &&& ~~~kk) hx).trans hbit

/-- Settles O32: each is `skipIf` on its comparison. -/
theorem comparisonsSkip : Obligations.ComparisonsSkip := fun _ _ _ s =>
  ⟨⟨_, rfl, skipped_skipIf s beq_iff_eq⟩, ⟨_, rfl, skipped_skipIf s bne_iff_ne⟩, ⟨_, rfl, skipped_skipIf s beq_iff_eq⟩,
    ⟨_, rfl, skipped_skipIf s bne_iff_ne⟩⟩

/-- Settles O33: each is `skipIf` on the flag of the key that the low nibble of Vx names. -/
theorem keyStateSkips : Obligations.KeyStateSkips := by
  refine fun x s => ⟨⟨_, rfl, skipped_skipIf s ?_⟩, ⟨_, rfl, skipped_skipIf s ?_⟩⟩
  · rw [State.keyDown, State.toNat_lowNibble]
  · rw [State.keyDown, State.toNat_lowNibble, Bool.not_eq_true']

end Sys2Proof.Machine
end

section
/-! Sprites (spec/43_display.md R141, R142): one draw, and the same draw twice. -/

namespace Sys2Proof.Machine

/-- Settles O35: what `blitSprite` does to each pixel, and its `hit` written to VF. -/
theorem drawXorsTheSprite : Obligations.DrawXorsTheSprite := by
  intro x y n s h
  obtain ⟨hin, hout, hhit⟩ := s.blitSprite_spec x y n
  refine ⟨_, execDraw_ok x y h, hin, hout, fun hset => ?_, fun hclear => ?_, rfl,
    regsKept_setV { s with fb := (s.blitSprite x y n).1 } 15 _, .of_eq rfl rfl⟩
  · have hflag : (s.blitSprite x y n).2 = true := hhit.mpr hset
    simp [hflag, flagByte]
  · have hflag : (s.blitSprite x y n).2 = false := by
      rw [Bool.eq_false_iff, Ne, hhit]
      rintro ⟨row, col, hcov, hset⟩
      exact absurd (hset.symm.trans (hclear row col hcov)) nofun
    simp [hflag, flagByte]

/-- A sprite names the same pixels from two states that agree on I, its bytes and its coordinates. -/
theorem spriteCovers_congr {s t : State} {x y : RegIdx} (hi : t.i = s.i) (hbytes : BytesKept s t)
    (hx : t.getV x = s.getV x) (hy : t.getV y = s.getV y) (n : Nibble) (row : Fin 32) (col : Fin 64) :
    SpriteCovers t x y n row col ↔ SpriteCovers s x y n row col := by
  rw [SpriteCovers, SpriteCovers, hi, hx, hy]
  simp only [hbytes _]

/-- Settles O36: the second draw names the same pixels, each of which it finds inverted and inverts back. -/
theorem drawingTwiceRestoresTheBitmap : Obligations.DrawingTwiceRestoresTheBitmap := by
  intro x y n s h
  obtain ⟨t, ht, hin, hout, -, -, heq, -, hbytes⟩ := drawXorsTheSprite x y n s h
  have hi : t.i = s.i := by rw [heq]
  refine ⟨t, ht, fun hx hy => ?_⟩
  obtain ⟨u, hu, hin', hout', hset, hclear, -⟩ := drawXorsTheSprite x y n t (by rwa [hi])
  have hcov (row col) := spriteCovers_congr hi hbytes hx hy n row col
  simp only [hcov] at hin' hout' hset hclear
  refine ⟨u, hu, fun row col => ?_, fun ⟨row, col, hc, hp⟩ => hset ⟨row, col, hc, ?_⟩,
    fun hp => hclear fun row col hc => ?_⟩
  · by_cases hc : SpriteCovers s x y n row col
    · rw [hin' row col hc, hin row col hc, Bool.not_not]
    · rw [hout' row col hc, hout row col hc]
  · rw [hin row col hc, hp]; rfl
  · rw [hin row col hc, hp row col hc]; rfl

end Sys2Proof.Machine
end

section
/-! Address register and memory (spec/44_index_memory.md, 20_memory.md). -/

namespace Sys2Proof.Machine

/-- Settles O38: each is one write of I and the advance of PC. -/
theorem indexInstructionsWriteI : Obligations.IndexInstructionsWriteI := by
  refine fun x s => ⟨⟨_, rfl, ?_, rfl, .of_eq rfl, .of_eq rfl rfl, .of_eq rfl⟩,
    ⟨_, rfl, ?_, rfl, .of_eq rfl, .of_eq rfl rfl, .of_eq rfl⟩⟩
  · simp
  · rw [State.advance_i, State.setI_i, State.toNat_glyphAddr, State.toNat_lowNibble]

/-- A byte outside a store. -/
theorem State.byteAt_store_of_outside {s : State} {b a : Nat} {vs : List Byte} (h : a < b ∨ b + vs.length ≤ a) :
    (s.store b vs).byteAt a = s.byteAt a := by
  rw [State.byteAt_store, if_neg (by omega)]

/-- A byte of a store. -/
theorem State.byteAt_store_of_lt (s : State) (b : Nat) {vs : List Byte} {k : Nat} (h : k < vs.length) :
    (s.store b vs).byteAt (b + k) = vs.getD k 0 := by
  rw [State.byteAt_store, if_pos (by omega), Nat.add_sub_cancel_left]

/-- Settles O39: one store of the three digits and the advance of PC. -/
theorem bcdStoresThreeDigits : Obligations.BcdStoresThreeDigits := by
  intro x s h
  have hlt := (s.getV x).isLt
  have hdigit (k : Nat) (hk : k < 3) : ((s.store s.i.toNat (bcdDigits (s.getV x))).advance.byteAt (s.i.toNat + k)).toNat =
      ((bcdDigits (s.getV x)).getD k 0).toNat := congrArg _ (State.byteAt_store_of_lt s _ hk)
  refine ⟨_, execMovBcd_ok x h, (hdigit 0 (by omega)).trans ?_, (hdigit 1 (by omega)).trans ?_,
    (hdigit 2 (by omega)).trans ?_, fun a ha => ?_, rfl, .of_eq rfl, .of_eq rfl⟩
  case refine_4 =>
    exact State.byteAt_store_of_outside (s := s) (by rw [length_bcdDigits]; omega)
  all_goals exact (BitVec.toNat_ofNat ..).trans (Nat.mod_eq_of_lt (by omega))

/-- A register stored by `LD [I], Vx`. -/
theorem byteAt_store_lowRegs (s : State) {x r : RegIdx} (h : r.toNat ≤ x.toNat) :
    (s.store s.i.toNat (s.lowRegs x)).advance.byteAt (s.i.toNat + r.toNat) = s.getV r :=
  (State.byteAt_store_of_lt s _ (by rw [State.length_lowRegs]; omega)).trans (s.getD_lowRegs x r h)

/-- Settles O40: one store of V0 to Vx and the advance of PC. -/
theorem blockStoreWritesV0ToVx : Obligations.BlockStoreWritesV0ToVx := fun x s h =>
  ⟨_, execWriteM_ok h, fun _ hr => byteAt_store_lowRegs s hr,
    fun a ha => State.byteAt_store_of_outside (s := s) (by rw [State.length_lowRegs]; omega), rfl, .of_eq rfl, .of_eq rfl⟩

/-- Settles O41: one load of V0 to Vx and the advance of PC. -/
theorem blockLoadReadsV0ToVx : Obligations.BlockLoadReadsV0ToVx := by
  refine fun x s h => ⟨_, execReadM_ok h, fun r hr => ?_, fun r hr => ?_, onlyRegs_loadRegs s x _⟩
  · rw [State.getV_advance, State.getV_loadRegs, if_pos hr]
  · rw [State.getV_advance, State.getV_loadRegs, if_neg (by omega)]

/-- Settles O42: the fetch check, and for each of the four instructions that access memory the check of its whole range. -/
theorem outOfBoundsHasTwoSites : Obligations.OutOfBoundsHasTwoSites := by
  refine ⟨fun s he hrun h => step_of_pc_out_of_bounds he hrun (by omega), fun x y n s =>
    ⟨fun hn h => ?_, fun h => ?_, fun h => ⟨?_, ?_⟩⟩⟩
  · have hne : n ≠ 0 := by rintro rfl; cases hn
    exact ⟨_, execDraw_fault x y (not_or.mpr ⟨hne, by omega⟩), faultEntered_raise ..⟩
  · exact ⟨_, execMovBcd_fault x h, faultEntered_raise ..⟩
  · exact ⟨_, execWriteM_fault h, faultEntered_raise ..⟩
  · exact ⟨_, execReadM_fault h, faultEntered_raise ..⟩

/-- Settles O43: V0 and V1 lie at I and I + 1, which are the next PC and the byte after it. -/
theorem storedWordIsFetchedNext : Obligations.StoredWordIsFetchedNext := by
  intro x s i hrun he hi heven hx hbound hd
  have hpc : (s.store s.i.toNat (s.lowRegs x)).advance.popEvent.pc.toNat = s.i.toNat := by
    show (s.pc + 2).toNat = s.i.toNat
    bv_omega
  have h0 := byteAt_store_lowRegs s (x := x) (r := 0) (Nat.zero_le _)
  have h1 := byteAt_store_lowRegs s (x := x) (r := 1) hx
  refine ⟨_, execWriteM_ok hbound, (step_eq_stepRunning (s := (s.store _ _).advance) he hrun).trans
    (stepRunning_of_decode (by omega) (by omega) ?_)⟩
  rw [hpc, ← hd, ← h0, ← h1]
  rfl

end Sys2Proof.Machine
end

section
/-! Control transfer (spec/46_flow.md). -/

namespace Sys2Proof.Machine

/-- Settles O47: the sum of a 12-bit address and a byte fits in PC. -/
theorem offsetJumpAddsV0 : Obligations.OffsetJumpAddsV0 := by
  refine fun nnn s => ⟨_, rfl, ?_, onlyPc_setPc s _⟩
  have := nnn.isLt
  have := (s.getV 0).isLt
  rw [State.setPc_pc, BitVec.toNat_add, toNat_wordOfAddr, State.toNat_wordOfV]
  omega

/-- Settles O48: `CALL` sets the entry at SP and nothing of the other entries. -/
theorem callPushesTheReturnAddress : Obligations.CallPushesTheReturnAddress := by
  refine fun nnn s h => ⟨_, execCall_ok nnn h, rfl, toNat_wordOfAddr nnn, fun k => ?_, rfl, .of_eq rfl, .of_eq rfl rfl,
    .of_eq rfl⟩
  exact (Vector.getElem_set h k.isLt).trans (by simp only [eq_comm])

/-- Settles O49: `RET` reads the entry below SP. -/
theorem retPopsTheReturnAddress : Obligations.RetPopsTheReturnAddress := by
  refine fun s k h => ⟨_, execRet_ok (by omega), ?_, ?_, rfl, .of_eq rfl, .of_eq rfl rfl, .of_eq rfl⟩
  · show s.sp.val - 1 = k.val
    omega
  · have hk : s.sp.val - 1 = k.val := by omega
    simp [hk]

/-- Settles O50: `CALL` and `RET` look at SP first; 15 entries leave room for one more. -/
theorem stackFaultsAtTheLimits : Obligations.StackFaultsAtTheLimits := by
  refine fun nnn s => ⟨fun h => ⟨_, execCall_fault nnn h, faultEntered_raise ..⟩,
    fun h => ⟨_, execRet_fault h, faultEntered_raise ..⟩, fun h => ⟨_, execCall_ok nnn (by omega), ?_, rfl⟩⟩
  show s.sp.val + 1 = 16
  omega

/-- Settles O52: PC is at most 0xFFE, so its low 12 bits are the whole of it, and the jump writes PC with itself. -/
theorem selfJumpChangesNothing : Obligations.SelfJumpChangesNothing := by
  intro s hfin he
  obtain ⟨⟨hrun, hfetch⟩, hword⟩ : (s.mode = .running ∧ fetchable s.pc = true) ∧
      s.wordAt s.pc.toNat = encode (.jp (s.pc.setWidth 12)) := by simpa [State.finished] using hfin
  obtain ⟨hbound, heven⟩ := (fetchable_iff s.pc).mp hfetch
  have hd : decode (s.popEvent.wordAt s.pc.toNat) = .ok (.jp (s.pc.setWidth 12)) :=
    (congrArg decode hword).trans (decode_encode _)
  have htarget : wordOfAddr (s.pc.setWidth 12) = s.popEvent.pc := by
    apply BitVec.eq_of_toNat_eq
    rw [toNat_wordOfAddr, BitVec.toNat_setWidth]
    exact Nat.mod_eq_of_lt (by omega)
  rw [step_eq_stepRunning he hrun, stepRunning_of_decode (s := s.popEvent) hbound heven hd, exec_jp, htarget,
    State.setPc_self]

/-! ### Nested calls and their returns -/

/-- Every live stack entry of `s` is in `t` too. -/
def LiveKept (s t : State) : Prop :=
  ∀ k : Fin 16, k.val < s.sp.val → t.stack[k.val]'(k.isLt) = s.stack[k.val]'(k.isLt)

theorem liveKept_called (s : State) (nnn : Addr12) (h : s.sp.val < 16) : LiveKept s (s.called nnn h) := fun k hk =>
  (Vector.getElem_set h k.isLt).trans (if_neg (by omega))

/-- A return after a call, with other entries and another PC since, goes to the return address that the call pushed. -/
theorem exec_ret_called (s : State) (nnn : Addr12) (h : s.sp.val < 16) {stack : Vector Word 16} (pc : Word)
    (htop : stack[s.sp.val]'h = s.pc + 2) :
    exec .ret { s.called nnn h with stack := stack, pc := pc } = .next { s with stack := stack, pc := s.pc + 2 } := by
  rw [← htop]
  exact execRet_ok (s := { s.called nnn h with stack := stack, pc := pc }) (Nat.succ_pos _)

/-- The calls of a list and as many returns, from any depth at which the calls fit. -/
theorem execAll_calls_returns (targets : List Addr12) (s : State) (hrun : s.mode = .running)
    (hfit : s.sp.val + targets.length ≤ 16) :
    ∃ t, execAll (targets.map Instr.call ++ List.replicate targets.length Instr.ret) s = .next t ∧
      t = { s with stack := t.stack, pc := t.pc } ∧ (targets ≠ [] → t.pc = s.pc + 2) ∧ LiveKept s t := by
  induction targets generalizing s with
  | nil => exact ⟨s, rfl, rfl, nofun, fun _ _ => rfl⟩
  | cons nnn ns ih =>
    rw [List.length_cons] at hfit
    have hlt : s.sp.val < 16 := by omega
    have hcall : exec (.call nnn) s = .next (s.called nnn hlt) := execCall_ok nnn hlt
    obtain ⟨t, hall, ht, -, hlive⟩ := ih (s.called nnn hlt) hrun (by show s.sp.val + 1 + _ ≤ 16; omega)
    have hmode : t.mode ≠ .halted := by rw [ht]; show s.mode ≠ .halted; rw [hrun]; nofun
    have htop : t.stack[s.sp.val]'hlt = s.pc + 2 :=
      (hlive ⟨s.sp.val, hlt⟩ (Nat.lt_succ_self _)).trans (Vector.getElem_set_self hlt)
    have hret : exec .ret t = .next { s with stack := t.stack, pc := s.pc + 2 } := by
      rw [ht]
      exact exec_ret_called s nnn hlt t.pc htop
    refine ⟨{ s with stack := t.stack, pc := s.pc + 2 }, ?_, rfl, fun _ => rfl, fun k hk => ?_⟩
    · have hsplit : (nnn :: ns).map Instr.call ++ List.replicate (nnn :: ns).length Instr.ret =
          Instr.call nnn :: ((ns.map Instr.call ++ List.replicate ns.length Instr.ret) ++ [Instr.ret]) := by
        simp [List.replicate_succ']
      rw [hsplit, execAll_cons hcall (by show s.mode ≠ .halted; rw [hrun]; nofun), execAll_append hall hmode,
        execAll_cons hret (by show s.mode ≠ .halted; rw [hrun]; nofun)]
      rfl
    · exact (hlive k (by show k.val < s.sp.val + 1; omega)).trans (liveKept_called s nnn hlt k hk)

/-- Settles O51: by induction on the calls, the last of which is returned from first. -/
theorem callsAndReturnsAreSymmetric : Obligations.CallsAndReturnsAreSymmetric := by
  intro targets s hne hrun hfit
  obtain ⟨t, hall, ht, hpc, hlive⟩ := execAll_calls_returns targets s hrun hfit
  exact ⟨t, hall, hpc hne ▸ ht, hlive⟩

end Sys2Proof.Machine
end

section
/-! What a step cannot see: KEY_PREV in `Running` mode (spec/10_state.md R33) and the stack entries from SP up (R27). -/

namespace Sys2Proof.Machine

/-! ### Two states with the same PC and memory take the same way -/

/-- A `Step` in `Running` mode reads PC and memory to choose its way: the same record raised, or the same instruction. -/
theorem stepRunning_same_way {s u : State} (hpc : u.pc = s.pc) (hf : u.font = s.font) (hm : u.mem = s.mem) :
    (∃ k w a, stepRunning s = .next (s.raise k w a) ∧ stepRunning u = .next (u.raise k w a)) ∨
      ∃ i, stepRunning s = exec i s ∧ stepRunning u = exec i u := by
  have hword : u.wordAt u.pc.toNat = s.wordAt s.pc.toNat := by
    rw [hpc, State.wordAt, State.wordAt, State.byteAt_congr hf hm, State.byteAt_congr hf hm]
  have hcases := stepRunning_cases u
  rw [hword, hpc] at hcases
  obtain ⟨h1, hu⟩ | ⟨h1, h2, hu⟩ | ⟨h1, h2, ⟨e, hd⟩, hu⟩ | ⟨h1, h2, i, hd, hu⟩ := hcases
  · exact .inl ⟨_, _, _, stepRunning_of_pc_out_of_bounds h1, hu⟩
  · exact .inl ⟨_, _, _, stepRunning_of_pc_odd h1 h2, hu⟩
  · exact .inl ⟨_, _, _, stepRunning_of_decode_error h1 h2 hd, hu⟩
  · exact .inr ⟨i, stepRunning_of_decode h1 h2 hd, hu⟩

/-- An instruction chooses between its fault and its completion by SP and I. -/
theorem State.faultOf_congr {s u : State} (hsp : u.sp = s.sp) (hi : u.i = s.i) (i : Instr) :
    u.faultOf i = s.faultOf i := by
  unfold State.faultOf
  rw [hsp, hi]

/-! ### KEY_PREV -/

/-- `KEY_PREV <- k`: the state that a run is compared with. -/
def State.setKeyPrev (s : State) (k : BitVec 16) : State := { s with keyPrev := k }

theorem State.skipIf_setKeyPrev (s : State) (k : BitVec 16) (c : Bool) :
    (s.setKeyPrev k).skipIf c = (s.skipIf c).setKeyPrev k := by
  cases c <;> rfl

theorem State.blitSprite_setKeyPrev (s : State) (k : BitVec 16) (x y : RegIdx) (n : Nibble) :
    (s.setKeyPrev k).blitSprite x y n = s.blitSprite x y n :=
  State.blitSprite_congr (s := s) (t := s.setKeyPrev k) rfl rfl rfl rfl rfl x y n

/-- An instruction overwrites KEY_PREV (`LD Vx, K`) or carries it along. -/
theorem State.after_setKeyPrev (s : State) (k : BitVec 16) (i : Instr) :
    (s.setKeyPrev k).after i = s.after i ∨ (s.setKeyPrev k).after i = (s.after i).setKeyPrev k := by
  cases i
  case waitKey => exact .inl rfl
  case seImm | sneImm | seReg | sneReg | skipKey | skipNoKey => exact .inr (State.skipIf_setKeyPrev ..)
  case draw => rw [State.after, State.blitSprite_setKeyPrev]; exact .inr rfl
  all_goals exact .inr rfl

theorem exec_setKeyPrev {i : Instr} {s t : State} (h : exec i s = .next t) (k : BitVec 16) :
    exec i (s.setKeyPrev k) = .next t ∨ exec i (s.setKeyPrev k) = .next (t.setKeyPrev k) := by
  have hsame : (s.setKeyPrev k).faultOf i = s.faultOf i := State.faultOf_congr rfl rfl i
  obtain ⟨kind, a, hf, rfl⟩ | ⟨hf, rfl⟩ := exec_next_cases h
  · exact .inr (exec_of_fault (hsame.trans hf))
  · rw [exec_of_no_fault (hsame.trans hf)]
    exact (s.after_setKeyPrev k i).imp (congrArg _) (congrArg _)

theorem stepRunning_setKeyPrev {s t : State} (h : stepRunning s = .next t) (k : BitVec 16) :
    stepRunning (s.setKeyPrev k) = .next t ∨ stepRunning (s.setKeyPrev k) = .next (t.setKeyPrev k) := by
  obtain ⟨kind, w, a, hs, hu⟩ | ⟨i, hs, hu⟩ := stepRunning_same_way (s := s) (u := s.setKeyPrev k) rfl rfl rfl
  · cases hs.symm.trans h
    exact .inr hu
  · rw [hu]
    exact exec_setKeyPrev (hs.symm.trans h) k

/-- Outside a poll of the keys no event reads KEY_PREV. -/
theorem step_setKeyPrev {s t : State} (hrun : s.mode = .running) (h : step s = .next t) (k : BitVec 16) :
    step (s.setKeyPrev k) = .next t ∨ step (s.setKeyPrev k) = .next (t.setKeyPrev k) := by
  cases he : s.nextEvent with
  | step =>
    rw [step_eq_stepRunning (s := s.setKeyPrev k) he hrun]
    exact stepRunning_setKeyPrev ((step_eq_stepRunning he hrun).symm.trans h) k
  | tick =>
    cases (step_eq_tick he).symm.trans h
    exact .inr (step_eq_tick (s := s.setKeyPrev k) he)
  | setKeys ks =>
    cases (step_eq_setKeys he).symm.trans h
    exact .inr (step_eq_setKeys (s := s.setKeyPrev k) he)
  | reset image =>
    rw [step_eq_resetEvent he] at h
    exact .inl ((step_eq_resetEvent (s := s.setKeyPrev k) he).trans h)

/-- Settles O56: from another KEY_PREV the step gives the same state, or the same but for KEY_PREV. -/
theorem keyPrevIsIrrelevantWhileRunning : Obligations.KeyPrevIsIrrelevantWhileRunning := by
  intro s t k hrun h
  obtain hsame | hkept := step_setKeyPrev hrun h k
  · exact ⟨t, hsame, rfl⟩
  · exact ⟨t.setKeyPrev k, hkept, rfl⟩

/-! ### Dead stack entries -/

/-- `Stack <- a`: the state that a run is compared with. -/
def State.setStack (s : State) (a : Vector Word 16) : State := { s with stack := a }

theorem State.skipIf_setStack (s : State) (a : Vector Word 16) (c : Bool) :
    (s.setStack a).skipIf c = (s.skipIf c).setStack a := by
  cases c <;> rfl

theorem State.blitSprite_setStack (s : State) (a : Vector Word 16) (x y : RegIdx) (n : Nibble) :
    (s.setStack a).blitSprite x y n = s.blitSprite x y n :=
  State.blitSprite_congr (s := s) (t := s.setStack a) rfl rfl rfl rfl rfl x y n

/-- The entry that `CALL` writes is the same in both, and live. -/
theorem liveKept_push {s : State} {a : Vector Word 16} (hlive : LiveKept s (s.setStack a)) {nnn : Addr12}
    (hsp : s.sp.val < 16) :
    LiveKept (s.called nnn hsp) ((s.called nnn hsp).setStack (a.set s.sp.val (s.pc + 2) hsp)) := by
  intro k hk
  have hk : k.val < s.sp.val + 1 := hk
  refine (Vector.getElem_set hsp k.isLt).trans (Eq.trans ?_ (Vector.getElem_set hsp k.isLt).symm)
  by_cases heq : s.sp.val = k.val
  · rw [if_pos heq, if_pos heq]
  · rw [if_neg heq, if_neg heq]
    exact hlive k (by omega)

/-- An instruction that raises no fault carries the dead entries along, `CALL` making one of them live by writing it. -/
theorem State.after_setStack {s : State} {a : Vector Word 16} (hlive : LiveKept s (s.setStack a)) {i : Instr}
    (hf : s.faultOf i = none) :
    ∃ b, (s.setStack a).after i = (s.after i).setStack b ∧ LiveKept (s.after i) ((s.after i).setStack b) := by
  cases i
  case call nnn =>
    have hsp := (State.sp_of_no_fault hf).1 ⟨nnn, rfl⟩
    rw [State.after_call nnn hsp, State.after_call (s := s.setStack a) nnn hsp]
    exact ⟨a.set s.sp.val (s.pc + 2) hsp, rfl, liveKept_push hlive hsp⟩
  case ret =>
    have hsp := (State.sp_of_no_fault hf).2 rfl
    have htop : a[s.sp.val - 1]'(by omega) = s.stack[s.sp.val - 1]'(by omega) :=
      hlive ⟨s.sp.val - 1, by omega⟩ (Nat.sub_lt hsp Nat.one_pos)
    rw [State.after_ret hsp, State.after_ret (s := s.setStack a) hsp]
    refine ⟨a, congrArg _ htop, fun k hk => hlive k (Nat.lt_of_lt_of_le hk (Nat.sub_le ..))⟩
  case seImm | sneImm | seReg | sneReg | skipKey | skipNoKey =>
    exact ⟨a, State.skipIf_setStack .., by simpa [LiveKept, State.after, State.setStack] using hlive⟩
  case draw =>
    refine ⟨a, ?_, hlive⟩
    rw [State.after, State.blitSprite_setStack]
    rfl
  case readM => exact ⟨a, rfl, by simpa [LiveKept, State.after, State.setStack] using hlive⟩
  all_goals exact ⟨a, rfl, hlive⟩

theorem exec_setStack {i : Instr} {s t : State} (h : exec i s = .next t) {a : Vector Word 16}
    (hlive : LiveKept s (s.setStack a)) :
    ∃ b, exec i (s.setStack a) = .next (t.setStack b) ∧ LiveKept t (t.setStack b) := by
  have hsame : (s.setStack a).faultOf i = s.faultOf i := State.faultOf_congr rfl rfl i
  obtain ⟨kind, addr, hf, rfl⟩ | ⟨hf, rfl⟩ := exec_next_cases h
  · exact ⟨a, exec_of_fault (hsame.trans hf), hlive⟩
  · obtain ⟨b, hb, hlive'⟩ := State.after_setStack hlive hf
    exact ⟨b, (exec_of_no_fault (hsame.trans hf)).trans (congrArg _ hb), hlive'⟩

theorem stepRunning_setStack {s t : State} (h : stepRunning s = .next t) {a : Vector Word 16}
    (hlive : LiveKept s (s.setStack a)) :
    ∃ b, stepRunning (s.setStack a) = .next (t.setStack b) ∧ LiveKept t (t.setStack b) := by
  obtain ⟨kind, w, addr, hs, hu⟩ | ⟨i, hs, hu⟩ := stepRunning_same_way (s := s) (u := s.setStack a) rfl rfl rfl
  · cases hs.symm.trans h
    exact ⟨a, hu, hlive⟩
  · rw [hu]
    exact exec_setStack (hs.symm.trans h) hlive

theorem stepAwaitingKey_setStack {x : RegIdx} {s t : State} (h : stepAwaitingKey x s = .next t) {a : Vector Word 16}
    (hlive : LiveKept s (s.setStack a)) :
    ∃ b, stepAwaitingKey x (s.setStack a) = .next (t.setStack b) ∧ LiveKept t (t.setStack b) := by
  cases hk : leastKey s.newlyDown with
  | none =>
    cases (stepAwaitingKey_of_none x hk).symm.trans h
    exact ⟨a, stepAwaitingKey_of_none (s := s.setStack a) x hk, hlive⟩
  | some k =>
    cases (stepAwaitingKey_of_some x hk).symm.trans h
    exact ⟨a, stepAwaitingKey_of_some (s := s.setStack a) x hk, hlive⟩

theorem stepEvent_setStack {s t : State} (h : stepEvent s = .next t) {a : Vector Word 16}
    (hlive : LiveKept s (s.setStack a)) :
    ∃ b, stepEvent (s.setStack a) = .next (t.setStack b) ∧ LiveKept t (t.setStack b) := by
  have hmode : (s.setStack a).mode = s.mode := rfl
  rw [stepEvent] at h
  rw [stepEvent, hmode]
  cases hm : s.mode with
  | running => rw [hm] at h; exact stepRunning_setStack h hlive
  | awaitingKey x => rw [hm] at h; exact stepAwaitingKey_setStack h hlive
  | halted => rw [hm] at h; cases h; exact ⟨a, rfl, hlive⟩

/-- No event reads a dead entry; `Reset` writes all of them. -/
theorem step_setStack {s t : State} (h : step s = .next t) {a : Vector Word 16} (hlive : LiveKept s (s.setStack a)) :
    ∃ b, step (s.setStack a) = .next (t.setStack b) ∧ LiveKept t (t.setStack b) := by
  cases he : s.nextEvent with
  | step =>
    rw [step_eq_stepEvent (s := s.setStack a) he]
    exact stepEvent_setStack ((step_eq_stepEvent he).symm.trans h) hlive
  | tick =>
    cases (step_eq_tick he).symm.trans h
    exact ⟨a, step_eq_tick (s := s.setStack a) he, hlive⟩
  | setKeys k =>
    cases (step_eq_setKeys he).symm.trans h
    exact ⟨a, step_eq_setKeys (s := s.setStack a) he, hlive⟩
  | reset image =>
    rw [step_eq_resetEvent he] at h
    exact ⟨t.stack, (step_eq_resetEvent (s := s.setStack a) he).trans h, fun _ _ => rfl⟩

/-- Settles O57: from another stack with the same live entries the step gives the same state, but for a stack with the same
live entries. -/
theorem deadStackEntriesAreUnobservable : Obligations.DeadStackEntriesAreUnobservable := by
  intro s s' t hs' hlive h
  obtain ⟨b, hstep, hlive'⟩ := step_setStack (a := s'.stack) h hlive
  exact ⟨t.setStack b, (congrArg step hs').trans hstep, rfl, hlive'⟩

end Sys2Proof.Machine
end
